-- ==== Sys2Proof/Word.lean ====
section
/-! DEFINITION. The element types of the block's memories (20_memory.md R40, R44): byte, bit, pixel. -/

namespace Sys2Proof

/-- A byte, 0..255: an element of `MSG`, `KEY`, `OUT`, one colour channel (R44), the command word (R66). -/
abbrev Byte := BitVec 8

/-- A single bit: an element of `BITS` (10_state.md R22). `false` is 0, `true` is 1. -/
abbrev Bit := Bool

/-- A pixel `(R, G, B)`, each channel an 8-bit unsigned value (10_state.md R24, 20_memory.md R44). -/
structure Pixel where
  r : Byte
  g : Byte
  b : Byte
  deriving DecidableEq, Repr, Inhabited

end Sys2Proof
end

