-- ==== Sys2Proof/Syntax.lean ====
section
/-! DEFINITION. The commands: one constructor per row of spec/opcode_table.json (30_encoding.md R67). -/

namespace Sys2Proof

/-- The block's commands. -/
inductive Instr where
  /-- SCRAMBLE, word 0x01 (40_scrambler.md R81). -/
  | scramble
  /-- UNSCRAMBLE, the alias of SCRAMBLE: same word, same rule (R72, R83). The decoder yields `scramble`. -/
  | unscramble
  /-- ENCODE, word 0x02 (41_codec.md R91). -/
  | encode
  /-- DECODE, word 0x03 (41_codec.md R96). -/
  | decode
  /-- WRBIT `b`, word 0x04 or 0x14 (42_pixel_channel.md R111). -/
  | wrbit (b : Bit)
  /-- RDBIT, word 0x05 (42_pixel_channel.md R112). -/
  | rdbit
  /-- EMBED, word 0x06 (43_engine.md R121). -/
  | embed
  /-- EXTRACT, word 0x07 (43_engine.md R124). -/
  | extract
  /-- CAPCHK, word 0x08 (44_capacity.md R132). -/
  | capchk
  /-- HIDE, word 0x09 (45_pipeline.md R141). -/
  | hide
  /-- SHOW, word 0x0A (45_pipeline.md R142); `show` is a word of Lean's own. -/
  | showCmd
  deriving DecidableEq, Repr

end Sys2Proof
end

