-- ==== Sys2Proof/WellFormed.lean ====
section
/-! DEFINITION. Which terms of `Instr` are a form the decoder yields (30_encoding.md R67, R72). -/

namespace Sys2Proof

/-- The form the decoder gives for an instruction's word: UNSCRAMBLE is another name of SCRAMBLE
(R72, R83), every other instruction is its own form. -/
def Instr.core : Instr → Instr
  | .scramble => .scramble
  | .unscramble => .scramble
  | .encode => .encode
  | .decode => .decode
  | .wrbit b => .wrbit b
  | .rdbit => .rdbit
  | .embed => .embed
  | .extract => .extract
  | .capchk => .capchk
  | .hide => .hide
  | .showCmd => .showCmd

/-- Well-formed: the instruction is a form the decoder yields. The one check: it is not spelled by an
alias. WRBIT's operand is one bit by its type, so no operand can be out of range. The alias is legal all
the same: `exec` gives it its meaning (assumption log 10). -/
def WellFormed (i : Instr) : Bool := i.core == i

end Sys2Proof
end

