-- ==== Sys2Proof/Decode.lean ====
section
/-! DEFINITION. The command word: decoder (30_encoding.md R67, R69) and, after it, encoder. -/

namespace Sys2Proof

/-- Why a word is reserved (R69). Each such word raises IllegalCommand. -/
inductive Reserved where
  /-- `op` is 0 or 11..15. -/
  | opcode
  /-- A legal `op` other than 4 with `c[7:4] ≠ 0`, or `op` 4 with `c[7:5] ≠ 0`. -/
  | bitsSet
  deriving DecidableEq, Repr

/-- `op`, bits 3:0 of the command word (R66). -/
def opField (c : Byte) : Nat := (c.extractLsb' 0 4).toNat

/-- Bits 7:5 of the command word, zero in every legal word (R66). -/
def zeroField (c : Byte) : Nat := (c.extractLsb' 5 3).toNat

/-- Bit 4 of the command word: WRBIT's operand `b`, zero in format N (R66). -/
def operandBit (c : Byte) : Bit := c.getLsbD 4

/-- A format N word: legal only when bits 7:4 are zero (R66). -/
def decodeN (c : Byte) (i : Instr) : Except Reserved Instr :=
  if zeroField c = 0 ∧ operandBit c = false then .ok i else .error .bitsSet

/-- The decoder of R67, total on all 256 words; a reserved word is rejected by name (R69). -/
def decode (c : Byte) : Except Reserved Instr :=
  match opField c with
  | 1 => decodeN c .scramble
  | 2 => decodeN c .encode
  | 3 => decodeN c .decode
  | 4 => if zeroField c = 0 then .ok (.wrbit (operandBit c)) else .error .bitsSet
  | 5 => decodeN c .rdbit
  | 6 => decodeN c .embed
  | 7 => decodeN c .extract
  | 8 => decodeN c .capchk
  | 9 => decodeN c .hide
  | 10 => decodeN c .showCmd
  | _ => .error .opcode

/-- `op` of each command (R67). -/
def Instr.opcode : Instr → BitVec 4
  | .scramble => 1
  | .unscramble => 1
  | .encode => 2
  | .decode => 3
  | .wrbit _ => 4
  | .rdbit => 5
  | .embed => 6
  | .extract => 7
  | .capchk => 8
  | .hide => 9
  | .showCmd => 10

/-- Bit 4 of each command's word: `b` in format B, zero in format N (R66). -/
def Instr.operand : Instr → Bit
  | .wrbit b => b
  | .scramble => false
  | .unscramble => false
  | .encode => false
  | .decode => false
  | .rdbit => false
  | .embed => false
  | .extract => false
  | .capchk => false
  | .hide => false
  | .showCmd => false

/-- The encoder: bits 7:5 zero, bit 4 the operand, bits 3:0 `op` (R66, R67, R71 `0x04 or (b << 4)`). -/
def encode (i : Instr) : Byte := 0#3 ++ BitVec.ofBool i.operand ++ i.opcode

/-- The command word the opcode table numbers as `w`: the table's rows are one byte wide, so bits at and
above `nbits` are zero and bits above 7 belong to no command. -/
def tableWord (nbits w : Nat) : Byte := BitVec.ofNat 8 (w % 2 ^ nbits)

/-- What the decoder reads from an instruction whose bits are `w` (host interface). -/
def decodeTableWord (nbits w : Nat) : Option Instr := (decode (tableWord nbits w)).toOption

end Sys2Proof
end

