-- ==== Sys2Proof/Config.lean ====
section
/-! DEFINITION. What an implementation fixes (00_scope.md R5) and the values the spec leaves open
(10_state.md R25, 93_implementation_defined.md U6, U7, U8). -/

namespace Sys2Proof

/-- The three width parameters of 00_scope.md R5 ("a model takes the three `*_BITS` values as arguments").
They reach the machine as the constant field `State.widths` (assumption log 4, DESIGN CHOICE). -/
structure Config.Widths where
  /-- `DIM_BITS`: width of `W`, `H`, `PX`, `PY`. -/
  dimBits : Nat
  /-- `LEN_BITS`: width of `MSG_LEN`, `KEY_LEN`. -/
  lenBits : Nat
  /-- `POS_BITS`: width of `BIT_LEN`, `OUT_LEN`, `POS`. -/
  posBits : Nat
  deriving DecidableEq, Repr

/-- The spec's defaults (R5). -/
def Config.defaultWidths : Config.Widths := { dimBits := 16, lenBits := 32, posBits := 36 }

/-- R5's constraints, `POS_BITS ≥ max(2·DIM_BITS, LEN_BITS + 4)` among them, and R6's guarantee that
`8 × (MSG_LEN + 3)` fits `POS_BITS` for the largest `MSG_LEN`. The last conjunct follows from the others
but for `LEN_BITS = 1`, `POS_BITS = 5`, where R6 fails (assumption log 4). -/
abbrev Config.Widths.Ok (c : Config.Widths) : Prop :=
  1 ≤ c.dimBits ∧ 1 ≤ c.lenBits ∧ 2 * c.dimBits ≤ c.posBits ∧ c.lenBits + 4 ≤ c.posBits ∧
    8 * (2 ^ c.lenBits + 2) < 2 ^ c.posBits

/-- Free value: what element `i` of `MSG` reads as while nothing has written it (R25, U7); the first
argument is the element's draw, `Memory.drawOf`. Assumption log 5. -/
opaque Config.freeMsg : Nat → Nat → Byte

/-- Free value: an unwritten element of `KEY` (R25, U7). -/
opaque Config.freeKey : Nat → Nat → Byte

/-- Free value: an unwritten or unspecified element of `BITS` (R25, U6, U7). -/
opaque Config.freeBits : Nat → Nat → Bit

/-- Free value: an unwritten or unspecified element of `OUT` (R25, U7, U8). -/
opaque Config.freeOut : Nat → Nat → Byte

/-- Free value: an unwritten pixel (R25, U7); the second argument is the pixel's cell key. -/
opaque Config.freePix : Nat → Nat → Pixel

end Sys2Proof
end

