-- ==== Sys2Proof/Machine/State.lean ====
section
/-! DEFINITION. The architectural state of the block (10_state.md R10), the host's events, and the reset
state (R28). Plain data throughout. -/

namespace Sys2Proof.Machine

/-- The content of `ERR` (10_state.md R14): the causes of 60_exceptions.md R150. The numbers are `Err.code`. -/
inductive Err where
  /-- Code 0: the last command completed. -/
  | noError
  /-- Code 1: raised by HIDE (R151). -/
  | capacityExceeded
  /-- Code 2: in the table, never raised (R156). -/
  | malformedTerminator
  /-- Code 3: in the table, never raised (R157). -/
  | encodingMismatch
  /-- Code 4: raised by the keyed commands (R152). -/
  | emptyPassword
  /-- Code 5: raised by the command decoder (R153). -/
  | illegalCommand
  /-- Code 6: raised by WRBIT and RDBIT (R154). -/
  | outOfRange
  deriving DecidableEq, Repr

/-- `FLAGS` (10_state.md R15): three one-bit fields; bits 7:3 do not exist and read as 0. -/
structure Flags where
  /-- Bit 0: result of the last CAPCHK. -/
  cap : Bit
  /-- Bit 1: the last decode found the terminator. -/
  tf : Bit
  /-- Bit 2: the bit the last RDBIT read. -/
  rb : Bit
  deriving DecidableEq, Repr

/-- One memory: its written elements, and `forgotten`, the index from which on its elements became unspecified,
one entry for each time they did, latest first. How often an element did names the free value it reads as while
unwritten (R25; `Memory.drawOf`; assumption log 5). For a byte memory `cells` is a list of `Host.Cell`. The one
canonical form is `Memory.wf`: keys strictly rising; an unlisted element holds no value. -/
structure Memory (α : Type) where
  cells : List (Nat × α)
  forgotten : List Nat
  deriving DecidableEq, Repr

/-- An address: a space and an element index in it (20_memory.md R40). -/
inductive Element where
  | msg (i : Nat)
  | key (i : Nat)
  | bits (k : Nat)
  | out (i : Nat)
  | pix (x y : Nat)
  deriving DecidableEq, Repr

/-- A value carried by a host transaction: a number, or the triple of a pixel (R52). -/
inductive HostValue where
  | num (v : Nat)
  | rgb (r g b : Nat)
  deriving DecidableEq, Repr

/-- What the host can do to the block: the reset event (70_reset_and_hazards.md R170) and the five
transaction kinds of 20_memory.md R52. -/
inductive HostEvent where
  | reset
  | regRead (n : Nat)
  | regWrite (n v : Nat)
  | memRead (e : Element)
  | memWrite (e : Element) (v : HostValue)
  | command (c : Byte)
  deriving DecidableEq, Repr

/-- The state of the block (R10). `CMD` holds nothing and is no field (R13). `widths`, `host`, `reply` and
the memories' lists `forgotten` are the model's own fields (assumption log 1, 3, 4, 5). -/
structure State where
  /-- The parameters of 00_scope.md R5; no step changes them. -/
  widths : Config.Widths
  /-- `ERR`, register 1. -/
  err : Err
  /-- `FLAGS`, register 2. -/
  flags : Flags
  /-- `W`, register 3. -/
  w : Nat
  /-- `H`, register 4. -/
  h : Nat
  /-- `MSG_LEN`, register 5. -/
  msgLen : Nat
  /-- `KEY_LEN`, register 6. -/
  keyLen : Nat
  /-- `PX`, register 7. -/
  px : Nat
  /-- `PY`, register 8. -/
  py : Nat
  /-- `BIT_LEN`, register 9. -/
  bitLen : Nat
  /-- `OUT_LEN`, register 10. -/
  outLen : Nat
  /-- `POS`, register 11. -/
  pos : Nat
  /-- `MSG`, the message buffer (R20). -/
  msg : Memory Byte
  /-- `KEY`, the password buffer (R21). -/
  key : Memory Byte
  /-- `BITS`, the bitstream buffer (R22). -/
  bits : Memory Bit
  /-- `OUT`, the output buffer (R23). -/
  out : Memory Byte
  /-- `PIX`, the pixel grid, by coordinate pair (R24, R53; cell key: `pixKey`). -/
  pix : Memory Pixel
  /-- The host's events not yet performed, in issue order (R50, R52). -/
  host : List HostEvent
  /-- What the latest host read returned (R52). -/
  reply : Option HostValue
  deriving DecidableEq, Repr

/-- Where the machine stops because an address does not exist. Both are safe: the spec defines no such
transaction and gives it no step (R19, R53, U11; assumption log 7). No command stops. -/
inductive Fault where
  /-- A host access to a register number above 11 (R19); raised by `hostEvent`. Safe. -/
  | noSuchRegister
  /-- A host access to a memory index outside the memory's capacity (R53); raised by `hostEvent`. Safe. -/
  | outsideCapacity
  deriving DecidableEq, Repr

/-- Why a step has no meaning. -/
inductive Refusal where
  /-- An instruction with no meaning yet; raised by `exec`'s arms only; no arm raises it. Safe. -/
  | notModelled (mnemonic : String)
  /-- A host read of `CMD` (R13, R19); raised by `hostEvent`. Safe. -/
  | readOfCmd
  /-- A host write to `ERR`, `FLAGS`, `OUT_LEN` or `POS` (R19); raised by `hostEvent`. Safe. -/
  | writeOfReadOnly
  /-- A host write of a value wider than the register or the element (R19, R53); raised by `hostEvent`. Safe. -/
  | valueTooWide
  deriving DecidableEq, Repr

/-- The state right after reset (R28, R170): every register 0, every element of every memory unwritten.
The model's own fields: the default widths, nothing forgotten, no event issued, no reply (log 1, 3, 4, 5). -/
def State.reset : State where
  widths := Config.defaultWidths
  err := .noError
  flags := { cap := false, tf := false, rb := false }
  w := 0
  h := 0
  msgLen := 0
  keyLen := 0
  px := 0
  py := 0
  bitLen := 0
  outLen := 0
  pos := 0
  msg := { cells := [], forgotten := [] }
  key := { cells := [], forgotten := [] }
  bits := { cells := [], forgotten := [] }
  out := { cells := [], forgotten := [] }
  pix := { cells := [], forgotten := [] }
  host := []
  reply := none

end Sys2Proof.Machine
end

