-- ==== Sys2Proof/Machine/Ops.lean ====
section
/-! DEFINITION. The named operations over memories and registers, and `raise`, the block's one way of
reporting an error (60_exceptions.md R155). -/

namespace Sys2Proof.Machine

/-! ### One memory -/

/-- The written value of element `i`, if any. -/
def lookupCell {α : Type} : List (Nat × α) → Nat → Option α
  | [], _ => none
  | (k, v) :: rest, i => if k = i then some v else lookupCell rest i

/-- Write element `i`, keeping the keys strictly rising. -/
def insertCell {α : Type} : List (Nat × α) → Nat → α → List (Nat × α)
  | [], i, v => [(i, v)]
  | (k, u) :: rest, i, v =>
    if i < k then (i, v) :: (k, u) :: rest
    else if k = i then (i, v) :: rest
    else (k, u) :: insertCell rest i v

/-- The cells of a buffer that holds `vs` from element `k` on. -/
def cellsFrom {α : Type} : Nat → List α → List (Nat × α)
  | _, [] => []
  | k, v :: vs => (k, v) :: cellsFrom (k + 1) vs

/-- The canonical form: the written elements in strictly rising order of their keys. -/
abbrev Memory.wf {α : Type} (m : Memory α) : Prop := (m.cells.map Prod.fst).Pairwise (· < ·)

/-- How often element `i` became unspecified: which of its free values it reads as while unwritten. -/
def Memory.drawOf {α : Type} (m : Memory α) (i : Nat) : Nat := m.forgotten.countP (· ≤ i)

/-- `MemRead` of one element (00_scope.md section 6): its written value, or the free value `free` names
for it while nothing has written it (R25, U7; assumption log 5). -/
def Memory.read {α : Type} (free : Nat → Nat → α) (m : Memory α) (i : Nat) : α :=
  (lookupCell m.cells i).getD (free (m.drawOf i) i)

/-- `MemWrite` of one element. -/
def Memory.set {α : Type} (m : Memory α) (i : Nat) (v : α) : Memory α :=
  { m with cells := insertCell m.cells i v }

/-- Elements from `n` on become unspecified: what was written there is gone, and each takes a new free value;
elements below `n` stay as they are (R22, U6; assumption log 6). -/
def Memory.forgetFrom {α : Type} (m : Memory α) (n : Nat) : Memory α :=
  { cells := m.cells.filter fun c => c.1 < n, forgotten := n :: m.forgotten }

/-- A buffer built fresh (10_state.md R22, R23): elements `0..vs.length-1` hold `vs`, every other element
is unspecified from now on, so it takes a new free value (U6, U8; assumption log 6). -/
def Memory.fresh {α : Type} (m : Memory α) (vs : List α) : Memory α :=
  { cells := cellsFrom 0 vs, forgotten := 0 :: m.forgotten }

/-! ### Reading the five memories -/

/-- `MemRead(MSG:i, 1)`. -/
def State.readMsg (s : State) (i : Nat) : Byte := s.msg.read Config.freeMsg i

/-- `MemRead(KEY:i, 1)`. -/
def State.readKey (s : State) (i : Nat) : Byte := s.key.read Config.freeKey i

/-- `MemRead(BITS:k, 1)`. -/
def State.readBits (s : State) (k : Nat) : Bit := s.bits.read Config.freeBits k

/-- `MemRead(OUT:i, 1)`; only the host does this (R23). -/
def State.readOut (s : State) (i : Nat) : Byte := s.out.read Config.freeOut i

/-- The cell key of pixel `(x, y)`: one number per coordinate pair, whatever `W` and `H` are
(20_memory.md R53; assumption log 8). -/
def pixKey (x y : Nat) : Nat := Nat.pair x y

/-- `MemRead(PIX:(x, y), 1)`. -/
def State.readPix (s : State) (x y : Nat) : Pixel := s.pix.read Config.freePix (pixKey x y)

/-! ### Updates of one field -/

/-- `ERR <- e`. -/
def State.setErr (s : State) (e : Err) : State := { s with err := e }

/-- `FLAGS <- f`. -/
def State.setFlags (s : State) (f : Flags) : State := { s with flags := f }

/-- `BIT_LEN <- n`. -/
def State.setBitLen (s : State) (n : Nat) : State := { s with bitLen := n }

/-- `POS <- n`. -/
def State.setPos (s : State) (n : Nat) : State := { s with pos := n }

/-- Replace the memory `MSG` (host writes only, R20). -/
def State.setMsg (s : State) (m : Memory Byte) : State := { s with msg := m }

/-- Replace the memory `KEY` (host writes only, R21). -/
def State.setKey (s : State) (m : Memory Byte) : State := { s with key := m }

/-- Replace the memory `BITS`. -/
def State.setBits (s : State) (m : Memory Bit) : State := { s with bits := m }

/-- Replace the memory `OUT`. -/
def State.setOut (s : State) (m : Memory Byte) : State := { s with out := m }

/-- Replace the memory `PIX`. -/
def State.setPix (s : State) (m : Memory Pixel) : State := { s with pix := m }

/-- Replace the host's events not yet performed. -/
def State.setHost (s : State) (es : List HostEvent) : State := { s with host := es }

/-- What a host read returns. -/
def State.setReply (s : State) (v : HostValue) : State := { s with reply := some v }

/-! ### Ending a command -/

/-- `raise E` (60_exceptions.md R155): `ERR <- code(E)` and the command ends; nothing else is written.
There is no handler, no saved context and nothing to return from (R158). -/
def State.raise (s : State) (e : Err) : State := s.setErr e

/-- After a command `BITS` is unspecified at and past `BIT_LEN` (10_state.md R22, 93_implementation_defined.md
U6). -/
def State.forgetTail (s : State) : State := s.setBits (s.bits.forgetFrom s.bitLen)

/-- The successful end of a command: `ERR <- 0` (30_encoding.md R68 step 3), and no more than the bitstream
`BITS[0..BIT_LEN)` is left specified of `BITS` (R22). -/
def State.complete (s : State) : State := s.forgetTail.setErr .noError

/-- The reset event (70_reset_and_hazards.md R170): every register to its value after reset, every element
of every memory unwritten (so it takes a new free value). The parameters, the events the host has still
queued and the host's last reply are not the block's to reset (assumption log 9). -/
def State.resetEvent (s : State) : State :=
  { State.reset with
    widths := s.widths
    msg := s.msg.fresh []
    key := s.key.fresh []
    bits := s.bits.fresh []
    out := s.out.fresh []
    pix := s.pix.fresh []
    host := s.host
    reply := s.reply }

end Sys2Proof.Machine
end

