-- ==== Sys2Proof/Machine/Operands.lean ====
section
/-! DEFINITION. Operand assembly (30_encoding.md R65): the terminator, bit and byte order, the key byte of
a data byte, the message and the bitstream as sequences, the pixel of a bit, the capacity numbers. -/

namespace Sys2Proof.Machine

/-! ### Bit order (20_memory.md R42) -/

/-- `bits_of_byte(v)`: `v[7], v[6], …, v[0]` (00_scope.md section 6). -/
def bitsOfByte (v : Byte) : List Bit :=
  [v.getLsbD 7, v.getLsbD 6, v.getLsbD 5, v.getLsbD 4, v.getLsbD 3, v.getLsbD 2, v.getLsbD 1, v.getLsbD 0]

/-- `byte_of_bits(b7,…,b0)`: `128·b7 + 64·b6 + 32·b5 + 16·b4 + 8·b3 + 4·b2 + 2·b1 + b0`. -/
def byteOfBits (b7 b6 b5 b4 b3 b2 b1 b0 : Bit) : Byte :=
  BitVec.ofNat 8 (128 * b7.toNat + 64 * b6.toNat + 32 * b5.toNat + 16 * b4.toNat + 8 * b3.toNat + 4 * b2.toNat
    + 2 * b1.toNat + b0.toNat)

/-- Whole bytes of a bit sequence, in order; a trailing group of fewer than 8 bits is discarded
(41_codec.md R95 steps 2 and 3). -/
def bytesOfBits : List Bit → List Byte
  | b7 :: b6 :: b5 :: b4 :: b3 :: b2 :: b1 :: b0 :: rest => byteOfBits b7 b6 b5 b4 b3 b2 b1 b0 :: bytesOfBits rest
  | _ => []

/-- Serialisation: every byte's bits, MSB first, in byte order (R42, R43). -/
def bitsOfBytes (bytes : List Byte) : List Bit := bytes.flatMap bitsOfByte

/-! ### The terminator (30_encoding.md R61) -/

/-- `TERM`, the fixed terminator bytes. -/
def termBytes : List Byte := [0x00#8, 0x00#8, 0x03#8]

/-- `TPAT`, the 24-bit pattern the decoder looks for: 22 zeros, then two ones. -/
def termPattern : List Bit := List.replicate 22 false ++ [true, true]

/-! ### Sequences held in memory -/

/-- The key byte for data byte `i`: `KEY[i mod KEY_LEN]` (R65); used only with `KEY_LEN ≥ 1`. -/
def State.keyByte (s : State) (i : Nat) : Byte := s.readKey (i % s.keyLen)

/-- The message, `MSG[0..MSG_LEN)` (10_state.md R20). -/
def State.message (s : State) : List Byte := (List.range s.msgLen).map s.readMsg

/-- The bitstream, `BITS[0..BIT_LEN)` (10_state.md R22). -/
def State.bitstream (s : State) : List Bit := (List.range s.bitLen).map s.readBits

/-! ### Pixels (R65, 10_state.md R16, R24) -/

/-- Number of pixels of the grid, `W × H`. -/
def State.gridSize (s : State) : Nat := s.w * s.h

/-- The cell key of the pixel of bit `k`: `(k mod W, k div W)`; used only for `k < W × H`. -/
def State.bitPixKey (s : State) (k : Nat) : Nat := pixKey (k % s.w) (k / s.w)

/-- WRBIT and RDBIT name a pixel of the grid: neither `PX ≥ W` nor `PY ≥ H` (60_exceptions.md R154). -/
def State.pixelInGrid (s : State) : Bool := decide (s.px < s.w) && decide (s.py < s.h)

/-- `zext_8(b)`: a bit placed into a byte. -/
def zextBit (b : Bit) : Byte := if b then 0x01#8 else 0x00#8

/-- The optional packed view of a pixel: `R` in 23:16, `G` in 15:8, `B` in 7:0 (20_memory.md R44). -/
def Pixel.packed (p : Pixel) : BitVec 24 := p.r ++ p.g ++ p.b

/-! ### Capacity (44_capacity.md R130, R131) -/

/-- `required(n) = (n + 3) × 8`. -/
def requiredBits (n : Nat) : Nat := (n + 3) * 8

/-- `available(W, H) = W × W`: the height is not used (R131). -/
def availableBits (w : Nat) : Nat := w * w

/-- `hasCapacity`: `available ≥ required`. -/
def hasCapacity (w n : Nat) : Bool := decide (availableBits w ≥ requiredBits n)

end Sys2Proof.Machine
end

