-- ==== Sys2Proof/Machine/Flags.lean ====
section
/-! DEFINITION. The result flags (10_state.md R15) and the numbers of the error codes (60_exceptions.md
R150), as the host reads them. -/

namespace Sys2Proof.Machine

/-- The number `ERR` reads as (R150). -/
def Err.code : Err → Nat
  | .noError => 0
  | .capacityExceeded => 1
  | .malformedTerminator => 2
  | .encodingMismatch => 3
  | .emptyPassword => 4
  | .illegalCommand => 5
  | .outOfRange => 6

/-- The number `FLAGS` reads as: `CAP` bit 0, `TF` bit 1, `RB` bit 2, bits 7:3 zero (R15). -/
def Flags.toNat (f : Flags) : Nat := f.cap.toNat + 2 * f.tf.toNat + 4 * f.rb.toNat

/-- `FLAGS.CAP <- v`, written by CAPCHK. -/
def Flags.withCap (f : Flags) (v : Bit) : Flags := { f with cap := v }

/-- `FLAGS.TF <- v`, written by DECODE and SHOW. -/
def Flags.withTf (f : Flags) (v : Bit) : Flags := { f with tf := v }

/-- `FLAGS.RB <- v`, written by RDBIT. -/
def Flags.withRb (f : Flags) (v : Bit) : Flags := { f with rb := v }

end Sys2Proof.Machine
end

