-- ==== Sys2Proof/Machine/Capacity.lean ====
section
/-! DEFINITION. Family 5: the capacity comparator, CAPCHK (44_capacity.md R132). -/

namespace Sys2Proof.Machine

/-- CAPCHK (R132): reports whether the message fits; raises nothing. -/
def execCapchk (s : State) : Host.Outcome State Fault Refusal :=
  .next (s.setFlags (s.flags.withCap (hasCapacity s.w s.msgLen))).complete

end Sys2Proof.Machine
end

