-- ==== Sys2Proof/Machine/Scrambler.lean ====
section
/-! DEFINITION. Family 1: SCRAMBLE and its alias UNSCRAMBLE (40_scrambler.md R80, R81, R83). -/

namespace Sys2Proof.Machine

/-- `scramble(bytes, key)` with the key given by its byte for each data index (R80):
`out[i] = bytes[i] xor key[i mod L]`. -/
def scrambleWith (keyAt : Nat → Byte) (bytes : List Byte) : List Byte :=
  bytes.mapIdx fun i v => v ^^^ keyAt i

/-- Body of SCRAMBLE without its check and without `ERR <- 0` (R81). -/
def State.scrambleBody (s : State) : State :=
  { s with
    out := s.out.fresh (scrambleWith s.keyByte s.message)
    outLen := s.msgLen }

/-- Rule R81: `OUT[0..MSG_LEN) <- scramble(MSG, KEY)`, `OUT_LEN <- MSG_LEN`. -/
def State.scrambleCommand (s : State) : State :=
  if s.keyLen = 0 then s.raise .emptyPassword
  else s.scrambleBody.complete

/-- SCRAMBLE (R81). -/
def execScramble (s : State) : Host.Outcome State Fault Refusal := .next s.scrambleCommand

/-- UNSCRAMBLE obeys R81 with no difference at all (R83). -/
def execUnscramble (s : State) : Host.Outcome State Fault Refusal := .next s.scrambleCommand

end Sys2Proof.Machine
end

