-- ==== Sys2Proof/Machine/Codec.lean ====
section
/-! DEFINITION. Family 2: the bitstream generator and decoder, ENCODE and DECODE (41_codec.md R90 to R98). -/

namespace Sys2Proof.Machine

/-- `encode(message, password)` (R90): scramble, append the terminator unscrambled, serialise MSB first. -/
def encodeStream (keyAt : Nat → Byte) (message : List Byte) : List Bit :=
  bitsOfBytes (scrambleWith keyAt message ++ termBytes)

/-- Offset of the first occurrence of `TPAT` in a bit sequence, at any bit offset (R95 step 1, R98). -/
def findTerm : List Bit → Option Nat
  | [] => none
  | b :: rest => if termPattern.isPrefixOf (b :: rest) then some 0 else (findTerm rest).map (· + 1)

/-- Where the stream is cut: at the first terminator, or at its end when there is none (R95 step 1, R97). -/
def cutIndex (stream : List Bit) : Nat := (findTerm stream).getD stream.length

/-- The recovered bytes: the bits before the cut, regrouped and unscrambled (R95 steps 2 to 4). -/
def decodeStream (keyAt : Nat → Byte) (stream : List Bit) : List Byte :=
  scrambleWith keyAt (bytesOfBits (stream.take (cutIndex stream)))

/-- Body of ENCODE without its check and without `ERR <- 0` (R91, R141). -/
def State.encodeBody (s : State) : State :=
  { s with
    bits := s.bits.fresh (encodeStream s.keyByte s.message)
    bitLen := 8 * (s.msgLen + 3)
    pos := 8 * (s.msgLen + 3) }

/-- Body of DECODE without its check and without `ERR <- 0` (R96, R142). -/
def State.decodeBody (s : State) : State :=
  { s with
    out := s.out.fresh (decodeStream s.keyByte s.bitstream)
    outLen := cutIndex s.bitstream / 8
    pos := cutIndex s.bitstream
    flags := s.flags.withTf (findTerm s.bitstream).isSome }

/-- ENCODE (R91). -/
def execEncode (s : State) : Host.Outcome State Fault Refusal :=
  .next (if s.keyLen = 0 then s.raise .emptyPassword else s.encodeBody.complete)

/-- DECODE (R96): an absent terminator is not an error (R97). -/
def execDecode (s : State) : Host.Outcome State Fault Refusal :=
  .next (if s.keyLen = 0 then s.raise .emptyPassword else s.decodeBody.complete)

end Sys2Proof.Machine
end

