-- ==== Sys2Proof/Machine/PixelChannel.lean ====
section
/-! DEFINITION. Family 3: the blue-channel bit multiplexer, WRBIT and RDBIT (42_pixel_channel.md R110 to R112). -/

namespace Sys2Proof.Machine

/-- `writeBit((R, G, B), b) = (R, G, (B and 0xFE) or b)` (R110). -/
def writeBit (p : Pixel) (b : Bit) : Pixel := { p with b := (p.b &&& 0xFE#8) ||| zextBit b }

/-- `readBit((R, G, B)) = B and 0x01` (R110). -/
def readBit (p : Pixel) : Bit := (p.b &&& 0x01#8) == 0x01#8

/-- Read-modify-write of the pixel with cell key `k`: its blue LSB becomes `b` (R111, R121). -/
def writePixelBit (m : Memory Pixel) (k : Nat) (b : Bit) : Memory Pixel :=
  m.set k (writeBit (m.read Config.freePix k) b)

/-- WRBIT `b` (R111). -/
def execWrbit (b : Bit) (s : State) : Host.Outcome State Fault Refusal :=
  .next (if s.pixelInGrid then (s.setPix (writePixelBit s.pix (pixKey s.px s.py) b)).complete
    else s.raise .outOfRange)

/-- RDBIT (R112). -/
def execRdbit (s : State) : Host.Outcome State Fault Refusal :=
  .next (if s.pixelInGrid then (s.setFlags (s.flags.withRb (readBit (s.readPix s.px s.py)))).complete else s.raise .outOfRange)

end Sys2Proof.Machine
end

