-- ==== Sys2Proof/Machine/Engine.lean ====
section
/-! DEFINITION. Family 4: the row-major embedder and extractor, EMBED and EXTRACT (43_engine.md R120 to R124). -/

namespace Sys2Proof.Machine

/-- Number of bits EMBED writes: `min(BIT_LEN, W × H)` (R120, R121). -/
def State.embedCount (s : State) : Nat := min s.bitLen s.gridSize

/-- `embed(g, s)` (R120): for `k = 0, 1, …` in order, bit `k` goes into the blue LSB of pixel
`(k mod W, k div W)`. -/
def State.embedGrid (s : State) : Memory Pixel :=
  (List.range s.embedCount).foldl (fun m k => writePixelBit m (s.bitPixKey k) (s.readBits k)) s.pix

/-- `extract(g)` (R120): the blue LSB of every pixel in row-major order. -/
def State.extractStream (s : State) : List Bit :=
  (List.range s.gridSize).map fun k => readBit (s.pix.read Config.freePix (s.bitPixKey k))

/-- Body of EMBED without `ERR <- 0` (R121, R141). -/
def State.embedBody (s : State) : State :=
  { s with
    pix := s.embedGrid
    pos := s.embedCount }

/-- Body of EXTRACT without `ERR <- 0` (R124, R142). -/
def State.extractBody (s : State) : State :=
  { s with
    bits := s.bits.fresh s.extractStream
    bitLen := s.gridSize
    pos := s.gridSize }

/-- EMBED (R121): no check, no error, not even when the grid ends before the bitstream (R123). -/
def execEmbed (s : State) : Host.Outcome State Fault Refusal := .next s.embedBody.complete

/-- EXTRACT (R124). -/
def execExtract (s : State) : Host.Outcome State Fault Refusal := .next s.extractBody.complete

end Sys2Proof.Machine
end

