-- ==== Sys2Proof/Machine/Pipeline.lean ====
section
/-! DEFINITION. Family 6: the composite pipelines, HIDE and SHOW (45_pipeline.md R140 to R142). -/

namespace Sys2Proof.Machine

/-- The bitstream is discarded after use: `BIT_LEN <- 0` (10_state.md R18), so that no element of `BITS` is left
specified at the end of the command (`State.complete`; 93_implementation_defined.md U6). -/
def State.discardBits (s : State) : State := s.setBitLen 0

/-- HIDE (R141): both checks before anything is written, EmptyPassword first (R159). -/
def execHide (s : State) : Host.Outcome State Fault Refusal :=
  .next
    (if s.keyLen = 0 then s.raise .emptyPassword
    else if hasCapacity s.w s.msgLen then s.encodeBody.embedBody.discardBits.complete
    else s.raise .capacityExceeded)

/-- SHOW (R142): the password check comes before the extraction. -/
def execShow (s : State) : Host.Outcome State Fault Refusal :=
  .next
    (if s.keyLen = 0 then s.raise .emptyPassword
    else s.extractBody.decodeBody.discardBits.complete)

end Sys2Proof.Machine
end

