-- ==== Sys2Proof/Machine/Dispatch.lean ====
section
/-! DEFINITION. One arm per command (30_encoding.md R67, R68 step 2). -/

namespace Sys2Proof.Machine

def exec (i : Instr) (s : State) : Host.Outcome State Fault Refusal :=
  match i with
  | .scramble => Sys2Proof.Machine.execScramble s
  | .unscramble => Sys2Proof.Machine.execUnscramble s
  | .encode => Sys2Proof.Machine.execEncode s
  | .decode => Sys2Proof.Machine.execDecode s
  | .wrbit b => Sys2Proof.Machine.execWrbit b s
  | .rdbit => Sys2Proof.Machine.execRdbit s
  | .embed => Sys2Proof.Machine.execEmbed s
  | .extract => Sys2Proof.Machine.execExtract s
  | .capchk => Sys2Proof.Machine.execCapchk s
  | .hide => Sys2Proof.Machine.execHide s
  | .showCmd => Sys2Proof.Machine.execShow s

end Sys2Proof.Machine
end

