-- ==== Sys2Proof/Machine/HostPort.lean ====
section
/-! DEFINITION. The host interface: registers by number (10_state.md R11, R19), memory elements
(20_memory.md R53), the five transactions (R52), `Command` (30_encoding.md R68) and the reset event (R170). -/

namespace Sys2Proof.Machine

/-! ### Register map (R11) -/

/-- `Command(c)` (R68): decode; a reserved word raises IllegalCommand (R69, R153); a legal one runs its rule. -/
def State.runCommand (s : State) (c : Byte) : Host.Outcome State Fault Refusal :=
  match decode c with
  | .ok i => exec i s
  | .error _ => .next (s.raise .illegalCommand)

/-- The value register `n` reads as (R11, R19): `CMD` cannot be read, there is no register above 11. -/
def State.readReg (s : State) (n : Nat) : Host.Outcome Nat Fault Refusal :=
  match n with
  | 0 => .refused .readOfCmd
  | 1 => .next s.err.code
  | 2 => .next s.flags.toNat
  | 3 => .next s.w
  | 4 => .next s.h
  | 5 => .next s.msgLen
  | 6 => .next s.keyLen
  | 7 => .next s.px
  | 8 => .next s.py
  | 9 => .next s.bitLen
  | 10 => .next s.outLen
  | 11 => .next s.pos
  | _ => .fault .noSuchRegister

/-- A host write of `v` to a register of `bits` bits: `t` when `v` fits, else not defined (R19). -/
def writeFitting (bits v : Nat) (t : State) : Host.Outcome State Fault Refusal :=
  if v < 2 ^ bits then .next t else .refused .valueTooWide

/-- `RegWrite(n, v)` (R52): for `n = 0` it is `Command(v)`; `ERR`, `FLAGS`, `OUT_LEN` and `POS` cannot be
written (R19). -/
def State.writeReg (s : State) (n v : Nat) : Host.Outcome State Fault Refusal :=
  match n with
  | 0 => if v < 2 ^ 8 then s.runCommand (BitVec.ofNat 8 v) else .refused .valueTooWide
  | 1 => .refused .writeOfReadOnly
  | 2 => .refused .writeOfReadOnly
  | 3 => writeFitting s.widths.dimBits v { s with w := v }
  | 4 => writeFitting s.widths.dimBits v { s with h := v }
  | 5 => writeFitting s.widths.lenBits v { s with msgLen := v }
  | 6 => writeFitting s.widths.lenBits v { s with keyLen := v }
  | 7 => writeFitting s.widths.dimBits v { s with px := v }
  | 8 => writeFitting s.widths.dimBits v { s with py := v }
  | 9 => writeFitting s.widths.posBits v { s with bitLen := v }
  | 10 => .refused .writeOfReadOnly
  | 11 => .refused .writeOfReadOnly
  | _ => .fault .noSuchRegister

/-! ### Memory elements (R53) -/

/-- The largest value of a register of `bits` bits, `2^bits − 1`: `W_MAX`, `H_MAX`, `MSG_MAX`, `KEY_MAX`,
`BITS_MAX`, `OUT_MAX` (00_scope.md R5). A memory's indices are below it. -/
def maxOf (bits : Nat) : Nat := 2 ^ bits - 1

/-- The element is within its memory's capacity (R40, R53). -/
def Element.inCapacity (c : Config.Widths) : Element → Bool
  | .msg i => decide (i < maxOf c.lenBits)
  | .key i => decide (i < maxOf c.lenBits)
  | .bits k => decide (k < maxOf c.posBits)
  | .out i => decide (i < maxOf c.posBits)
  | .pix x y => decide (x < maxOf c.dimBits) && decide (y < maxOf c.dimBits)

/-- What a host read of an element returns (R52, R53); an unwritten element returns its free value. -/
def State.readElement (s : State) : Element → HostValue
  | .msg i => .num (s.readMsg i).toNat
  | .key i => .num (s.readKey i).toNat
  | .bits k => .num (s.readBits k).toNat
  | .out i => .num (s.readOut i).toNat
  | .pix x y => .rgb (s.readPix x y).r.toNat (s.readPix x y).g.toNat (s.readPix x y).b.toNat

/-- A host write of one element; a value that does not fit the element is not defined (R53). -/
def State.writeElement (s : State) : Element → HostValue → Host.Outcome State Fault Refusal
  | .msg i, .num v => if v < 256 then .next (s.setMsg (s.msg.set i (BitVec.ofNat 8 v))) else .refused .valueTooWide
  | .key i, .num v => if v < 256 then .next (s.setKey (s.key.set i (BitVec.ofNat 8 v))) else .refused .valueTooWide
  | .bits k, .num v => if v < 2 then .next (s.setBits (s.bits.set k (v == 1))) else .refused .valueTooWide
  | .out i, .num v => if v < 256 then .next (s.setOut (s.out.set i (BitVec.ofNat 8 v))) else .refused .valueTooWide
  | .pix x y, .rgb r g b =>
    if r < 256 ∧ g < 256 ∧ b < 256 then
      .next (s.setPix (s.pix.set (pixKey x y) ⟨BitVec.ofNat 8 r, BitVec.ofNat 8 g, BitVec.ofNat 8 b⟩))
    else .refused .valueTooWide
  | .msg _, .rgb _ _ _ => .refused .valueTooWide
  | .key _, .rgb _ _ _ => .refused .valueTooWide
  | .bits _, .rgb _ _ _ => .refused .valueTooWide
  | .out _, .rgb _ _ _ => .refused .valueTooWide
  | .pix _ _, .num _ => .refused .valueTooWide

/-! ### Events -/

/-- One event of the host, performed to its end before the next begins (R50). -/
def State.hostEvent (s : State) : HostEvent → Host.Outcome State Fault Refusal
  | .reset => .next s.resetEvent
  | .regRead n =>
    match s.readReg n with
    | .next v => .next (s.setReply (.num v))
    | .fault f => .fault f
    | .refused r => .refused r
  | .regWrite n v => s.writeReg n v
  | .memRead e =>
    if e.inCapacity s.widths then .next (s.setReply (s.readElement e)) else .fault .outsideCapacity
  | .memWrite e v => if e.inCapacity s.widths then s.writeElement e v else .fault .outsideCapacity
  | .command c => s.runCommand c

/-- Perform the first event the host has issued; with none the block does nothing (R171; log 1). -/
def State.nextEvent (s : State) : Host.Outcome State Fault Refusal :=
  match s.host with
  | [] => .next s
  | e :: rest => (s.setHost rest).hostEvent e

/-- Put the command word `c` first in the host's issue order (log 2). -/
def State.issueFirst (s : State) (c : Byte) : State := s.setHost (.command c :: s.host)

end Sys2Proof.Machine
end

