-- ==== Sys2Proof/Machine/Step.lean ====
section
/-! DEFINITION. One step: the next event of the host (20_memory.md R50, R52). -/

namespace Sys2Proof.Machine

/-- One step of the block. -/
def step (s : State) : Host.Outcome State Fault Refusal := s.nextEvent

/-- `s` with the command word the opcode table numbers as `w` issued as the host's next event. -/
def State.withFetchWord (s : State) (nbits w : Nat) : State := s.issueFirst (tableWord nbits w)

end Sys2Proof.Machine
end

