-- ==== Sys2Proof/Machine/HostProgram.lean ====
section
/-! DEFINITION. The notation for host programs (30_encoding.md R71, R72): what transactions a line stands for. -/

namespace Sys2Proof.Machine

/-- A register name in a host program: a row of the register map (10_state.md R11). -/
inductive RegName where
  | cmd | err | flags | w | h | msgLen | keyLen | px | py | bitLen | outLen | pos
  deriving DecidableEq, Repr

/-- The rows of the register map in its order; the map numbers them from 0 (R11). -/
def registerMap : List RegName :=
  [.cmd, .err, .flags, .w, .h, .msgLen, .keyLen, .px, .py, .bitLen, .outLen, .pos]

/-- `no(REG)`: the number of the register's row (R11). -/
def RegName.no (r : RegName) : Nat := registerMap.idxOf r

/-- A line of a host program (R71). -/
inductive HostLine where
  /-- `set REG, v`. -/
  | set (r : RegName) (v : Nat)
  /-- `get REG`. -/
  | get (r : RegName)
  /-- `load S, i, [v0, v1, …]`, one element after another from `first` on. -/
  | load (first : Element) (vs : List HostValue)
  /-- `fill PIX, (R, G, B)`. -/
  | fill (r g b : Nat)
  /-- `peek S, i`. -/
  | peek (e : Element)
  /-- `MNEMONIC`, or `WRBIT b`. -/
  | command (i : Instr)
  deriving DecidableEq, Repr

/-- The element after `e` in the same space; for `PIX` the next pixel of the same row, since `load` with a
list of pixels is used by the spec for single pixels only (assumption log 11). -/
def Element.next : Element → Element
  | .msg i => .msg (i + 1)
  | .key i => .key (i + 1)
  | .bits k => .bits (k + 1)
  | .out i => .out (i + 1)
  | .pix x y => .pix (x + 1) y

/-- Writes of consecutive elements (R71 `load`). -/
def loadEvents : Element → List HostValue → List HostEvent
  | _, [] => []
  | e, v :: vs => .memWrite e v :: loadEvents e.next vs

/-- The transactions a line stands for, with the current `W` and `H` (R71). -/
def HostLine.events (w h : Nat) : HostLine → List HostEvent
  | .set r v => [.regWrite r.no v]
  | .get r => [.regRead r.no]
  | .load e vs => loadEvents e vs
  | .fill r g b =>
    (List.range h).flatMap fun y => (List.range w).map fun x => .memWrite (.pix x y) (.rgb r g b)
  | .peek e => [.memRead e]
  | .command i => [.command (encode i)]

/-- A quoted string in a `load` line stands for its bytes, one per character (R71; 93_implementation_defined.md
G1; assumption log 11). -/
def quoted (text : List Char) : List HostValue := text.map fun c => .num c.toNat

/-! ### Running a host program, top to bottom (R71) -/

/-- Perform transactions one after another, each to its end, up to the first that is not defined (R50). -/
def performAll : List HostEvent → State → Host.Outcome State Fault Refusal
  | [], s => .next s
  | e :: es, s =>
    match s.hostEvent e with
    | .next t => performAll es t
    | .fault f => .fault f
    | .refused r => .refused r

/-- Execute one line: its transactions, with the `W` and `H` it finds (R71 `fill`, "current register values"). -/
def State.runLine (s : State) (l : HostLine) : Host.Outcome State Fault Refusal := performAll (l.events s.w s.h) s

/-- Execute the lines of a program from top to bottom; the notation has no branching (R71). -/
def runProgram : List HostLine → State → Host.Outcome State Fault Refusal
  | [], s => .next s
  | l :: ls, s =>
    match s.runLine l with
    | .next t => runProgram ls t
    | .fault f => .fault f
    | .refused r => .refused r

/-! ### Issuing a host program into the list of events -/

/-- `(W, H)` after an event that is performed: only a write of the register (R12) or a reset (R170) changes one. -/
def HostEvent.gridAfter : HostEvent → Nat × Nat → Nat × Nat
  | .reset, _ => (0, 0)
  | .regWrite n v, d => if n = 3 then (v, d.2) else if n = 4 then (d.1, v) else d
  | .regRead _, d => d
  | .memRead _, d => d
  | .memWrite _ _, d => d
  | .command _, d => d

/-- `(W, H)` once every event already issued is performed: what a line issued now will find. -/
def State.gridAtTurn (s : State) : Nat × Nat := s.host.foldl (fun d e => e.gridAfter d) (s.w, s.h)

/-- The host issues one line, after what it has issued before; `fill` uses the `W` and `H` of the line's turn. -/
def State.issueLine (s : State) (l : HostLine) : State :=
  s.setHost (s.host ++ l.events s.gridAtTurn.1 s.gridAtTurn.2)

/-- The host issues a whole program, line by line from the top. -/
def State.issueProgram (s : State) (ls : List HostLine) : State := ls.foldl State.issueLine s

end Sys2Proof.Machine
end

