-- ==== Sys2Proof/Safety.lean ====
section
/-! DEFINITION. What counts as a safe state and a well-prepared command, and the predicates statements are
written with. -/

namespace Sys2Proof.Machine

/-! ### The invariant of the block -/

/-- Every register's value fits its width (10_state.md R11, 00_scope.md R5, R6). -/
abbrev State.RegistersFit (s : State) : Prop :=
  s.w < 2 ^ s.widths.dimBits ∧ s.h < 2 ^ s.widths.dimBits ∧ s.px < 2 ^ s.widths.dimBits ∧
    s.py < 2 ^ s.widths.dimBits ∧ s.msgLen < 2 ^ s.widths.lenBits ∧ s.keyLen < 2 ^ s.widths.lenBits ∧
    s.bitLen < 2 ^ s.widths.posBits ∧ s.outLen < 2 ^ s.widths.posBits ∧ s.pos < 2 ^ s.widths.posBits

/-- `ERR` never holds the two codes no command raises (60_exceptions.md R156, R157). -/
abbrev State.ErrUsed (s : State) : Prop := s.err ≠ .malformedTerminator ∧ s.err ≠ .encodingMismatch

/-- A memory in canonical form whose elements all lie below index `n`. -/
abbrev Memory.WfBelow {α : Type} (m : Memory α) (n : Nat) : Prop := m.wf ∧ ∀ c ∈ m.cells, c.1 < n

/-- The pixel memory in canonical form, every pixel within the capacity (20_memory.md R53). -/
abbrev Memory.GridWf (m : Memory Pixel) (n : Nat) : Prop :=
  m.wf ∧ ∀ c ∈ m.cells, (Nat.unpair c.1).1 < n ∧ (Nat.unpair c.1).2 < n

/-- Every memory is canonical and within its capacity (00_scope.md R5, 20_memory.md R40, R55). -/
abbrev State.MemoriesWf (s : State) : Prop :=
  s.msg.WfBelow (maxOf s.widths.lenBits) ∧ s.key.WfBelow (maxOf s.widths.lenBits) ∧
    s.bits.WfBelow (maxOf s.widths.posBits) ∧ s.out.WfBelow (maxOf s.widths.posBits) ∧
    s.pix.GridWf (maxOf s.widths.dimBits)

/-- The invariant: legal parameters, registers within their widths, a raised error code in `ERR`, canonical
memories within their capacities. -/
abbrev State.Inv (s : State) : Prop := s.widths.Ok ∧ s.RegistersFit ∧ s.ErrUsed ∧ s.MemoriesWf

/-! ### What the host must have written before a command (70_reset_and_hazards.md R172) -/

/-- Element `i` has been written. -/
abbrev Memory.Written {α : Type} (m : Memory α) (i : Nat) : Prop := (lookupCell m.cells i).isSome

abbrev State.MessageWritten (s : State) : Prop := ∀ i, i < s.msgLen → s.msg.Written i

abbrev State.PasswordWritten (s : State) : Prop := 1 ≤ s.keyLen ∧ ∀ i, i < s.keyLen → s.key.Written i

abbrev State.BitstreamWritten (s : State) : Prop := ∀ k, k < s.bitLen → s.bits.Written k

/-- The first `n` pixels of the grid in row-major order are written. -/
abbrev State.PixelsWritten (s : State) (n : Nat) : Prop := ∀ k, k < n → s.pix.Written (s.bitPixKey k)

/-- Every input the command reads is written (the table of R172). -/
def State.InputsWritten (s : State) : Instr → Prop
  | .scramble => s.MessageWritten ∧ s.PasswordWritten
  | .unscramble => s.MessageWritten ∧ s.PasswordWritten
  | .encode => s.MessageWritten ∧ s.PasswordWritten
  | .decode => s.BitstreamWritten ∧ s.PasswordWritten
  | .wrbit _ => s.px < s.w ∧ s.py < s.h ∧ s.pix.Written (pixKey s.px s.py)
  | .rdbit => s.px < s.w ∧ s.py < s.h ∧ s.pix.Written (pixKey s.px s.py)
  | .embed => s.BitstreamWritten ∧ s.PixelsWritten s.embedCount
  | .extract => s.PixelsWritten s.gridSize
  | .capchk => True
  | .hide => s.MessageWritten ∧ s.PasswordWritten ∧ s.PixelsWritten (min (8 * (s.msgLen + 3)) s.gridSize)
  | .showCmd => s.PixelsWritten s.gridSize ∧ s.PasswordWritten

/-- The same state with other free values for its unwritten elements. -/
def State.redraw (s : State) (dMsg dKey dBits dOut dPix : List Nat) : State :=
  { s with
    msg := { s.msg with forgotten := dMsg }
    key := { s.key with forgotten := dKey }
    bits := { s.bits with forgotten := dBits }
    out := { s.out with forgotten := dOut }
    pix := { s.pix with forgotten := dPix } }

/-! ### Many steps -/

/-- `n` steps, stopping at the first fault or refusal. -/
def stepMany : Nat → State → Host.Outcome State Fault Refusal
  | 0, s => .next s
  | n + 1, s =>
    match step s with
    | .next t => stepMany n t
    | .fault f => .fault f
    | .refused r => .refused r

/-! ### Predicates for statements -/

/-- The host's side of the state is as before: parameters, operand registers, `MSG`, `KEY`, the events still
queued and the last reply (10_state.md R12, R20, R21). -/
def State.SameInputs (s t : State) : Prop :=
  t.widths = s.widths ∧ t.w = s.w ∧ t.h = s.h ∧ t.msgLen = s.msgLen ∧ t.keyLen = s.keyLen ∧ t.px = s.px ∧
    t.py = s.py ∧ t.msg = s.msg ∧ t.key = s.key ∧ t.host = s.host ∧ t.reply = s.reply

/-- The bitstream `BITS[0..BIT_LEN)` of `s` is still there in `t`; of elements past it nothing is said, since they
are unspecified after a command (10_state.md R22). -/
def State.SameBitstream (s t : State) : Prop := ∀ k, k < s.bitLen → t.readBits k = s.readBits k

/-- The terminator pattern stands at index `q` of a bit sequence (30_encoding.md R61, 41_codec.md R95). -/
def TermIn (stream : List Bit) (q : Nat) : Prop :=
  q + 24 ≤ stream.length ∧ (stream.drop q).take 24 = termPattern

/-- The terminator pattern, 22 zeros and then two ones, stands at index `q` of the bits
`bit 0, …, bit (n − 1)` (R61, R96). -/
def TermOn (bit : Nat → Bit) (n q : Nat) : Prop :=
  q + 24 ≤ n ∧ (∀ t, t < 22 → bit (q + t) = false) ∧ bit (q + 22) = true ∧ bit (q + 23) = true

/-- `p` and `found` are where the bits `bit 0, …, bit (n − 1)` are cut: at the first terminator, or at the
end when there is none (R95 step 1, R97). -/
def CutOn (bit : Nat → Bit) (n p : Nat) (found : Bit) : Prop :=
  (found = true ∧ TermOn bit n p ∧ ∀ q, q < p → ¬TermOn bit n q) ∨
    (found = false ∧ p = n ∧ ∀ q, ¬TermOn bit n q)

/-- Byte `i` of the bits `bit 0, bit 1, …`: `byte_of_bits(bit[8i], …, bit[8i+7])` (R65, R95 step 3). -/
def byteOn (bit : Nat → Bit) (i : Nat) : Byte :=
  byteOfBits (bit (8 * i)) (bit (8 * i + 1)) (bit (8 * i + 2)) (bit (8 * i + 3)) (bit (8 * i + 4))
    (bit (8 * i + 5)) (bit (8 * i + 6)) (bit (8 * i + 7))

/-- Bit `k` of the encoded stream of the message in `MSG` under the password in `KEY`, read off the layout
of 30_encoding.md R60: scrambled byte `k div 8`, bit `7 − k mod 8`, then 22 zeros and two ones. -/
def State.streamBit (s : State) (k : Nat) : Bit :=
  if k < 8 * s.msgLen then (s.readMsg (k / 8) ^^^ s.readKey (k / 8 % s.keyLen)).getLsbD (7 - k % 8)
  else decide (8 * s.msgLen + 22 ≤ k)

/-- The pixel of bit `k`, `(k mod W, k div W)` (R65). -/
def State.pixelOfBit (s : State) (k : Nat) : Pixel := s.readPix (k % s.w) (k / s.w)

/-- The blue LSB of the pixel of bit `k`. -/
def State.gridBit (s : State) (k : Nat) : Bit := (s.pixelOfBit k).b.getLsbD 0

/-- A host value fits the element it is written to: 0..255 for a byte or a channel, 0 or 1 for a bit
(20_memory.md R53). -/
def HostValue.Fits : HostValue → Element → Prop
  | .num v, .msg _ => v < 256
  | .num v, .key _ => v < 256
  | .num v, .bits _ => v < 2
  | .num v, .out _ => v < 256
  | .rgb r g b, .pix _ _ => r < 256 ∧ g < 256 ∧ b < 256
  | .rgb _ _ _, .msg _ => False
  | .rgb _ _ _, .key _ => False
  | .rgb _ _ _, .bits _ => False
  | .rgb _ _ _, .out _ => False
  | .num _, .pix _ _ => False

/-- Every register is as before. -/
def State.SameRegisters (s t : State) : Prop :=
  t.widths = s.widths ∧ t.err = s.err ∧ t.flags = s.flags ∧ t.w = s.w ∧ t.h = s.h ∧ t.msgLen = s.msgLen ∧
    t.keyLen = s.keyLen ∧ t.px = s.px ∧ t.py = s.py ∧ t.bitLen = s.bitLen ∧ t.outLen = s.outLen ∧ t.pos = s.pos

/-- EMBED's pseudocode, inner loop body (43_engine.md R121): `k` is the running cursor, `m` the grid; once
the bitstream is exhausted nothing more is done. -/
def State.embedVisit (s : State) (y : Nat) (st : Nat × Memory Pixel) (x : Nat) : Nat × Memory Pixel :=
  if st.1 < s.bitLen then (st.1 + 1, writePixelBit st.2 (pixKey x y) (s.readBits st.1)) else st

/-- EMBED's pseudocode (R121): `y` from 0 to `H − 1` outer, `x` from 0 to `W − 1` inner. -/
def State.embedLoops (s : State) : Nat × Memory Pixel :=
  (List.range s.h).foldl (fun st y => (List.range s.w).foldl (s.embedVisit y) st) (0, s.pix)

/-- EXTRACT's pseudocode (43_engine.md R124): the bits in the order the nested loops produce them. -/
def State.extractLoops (s : State) : List Bit :=
  (List.range s.h).flatMap fun y => (List.range s.w).map fun x => readBit (s.readPix x y)

end Sys2Proof.Machine
end

