-- ==== Sys2Proof/Certificates/Slice0/Obligations.lean ====
section
/-! DEFINITION. The statements about the block for the provers. A read of a memory element in a statement
gives the element's written value, or its free value while nothing has written it (assumption log 5): no
statement rests on what the free value is. A memory that a statement says is equal to what it was reads, at
every index, as it read before. -/

open Sys2Proof Sys2Proof.Machine

/-! ### Encoding -/

/-- 30_encoding.md R67: the decoder in the rule's own words, for every word, and the count of legal words. -/
def Obligations.DecoderFollowsOpcodeMap : Prop :=
  (∀ c : Byte,
    (c.extractLsb' 0 4 = 4#4 ∧ c.extractLsb' 5 3 = 0#3 → decode c = .ok (.wrbit (c.getLsbD 4))) ∧
    (c.extractLsb' 4 4 = 0#4 →
      (c.extractLsb' 0 4 = 1#4 → decode c = .ok .scramble) ∧
      (c.extractLsb' 0 4 = 2#4 → decode c = .ok .encode) ∧
      (c.extractLsb' 0 4 = 3#4 → decode c = .ok .decode) ∧
      (c.extractLsb' 0 4 = 5#4 → decode c = .ok .rdbit) ∧
      (c.extractLsb' 0 4 = 6#4 → decode c = .ok .embed) ∧
      (c.extractLsb' 0 4 = 7#4 → decode c = .ok .extract) ∧
      (c.extractLsb' 0 4 = 8#4 → decode c = .ok .capchk) ∧
      (c.extractLsb' 0 4 = 9#4 → decode c = .ok .hide) ∧
      (c.extractLsb' 0 4 = 10#4 → decode c = .ok .showCmd)) ∧
    ((decode c).toOption.isSome ↔
      c ∈ [0x01#8, 0x02#8, 0x03#8, 0x04#8, 0x14#8, 0x05#8, 0x06#8, 0x07#8, 0x08#8, 0x09#8, 0x0A#8])) ∧
  ((List.range 256).filter fun n => (decode (BitVec.ofNat 8 n)).toOption.isSome).length = 11 ∧
  ((List.range 256).filter fun n => (decode (BitVec.ofNat 8 n)).toOption.isNone).length = 245

/-- One word of each family, written out bit by bit from R66 and R67. -/
def Obligations.FamilyWordsDecode : Prop :=
  decode 0b00000001#8 = .ok .scramble ∧ decode 0b00000010#8 = .ok .encode ∧ decode 0b00000011#8 = .ok .decode ∧
    decode 0b00000100#8 = .ok (.wrbit false) ∧ decode 0b00010100#8 = .ok (.wrbit true) ∧
    decode 0b00000111#8 = .ok .extract ∧ decode 0b00001000#8 = .ok .capchk ∧ decode 0b00001010#8 = .ok .showCmd

/-- Decode and encode agree, both ways, for every instruction and every value of WRBIT's operand: a
well-formed instruction comes back from its word, an alias comes back as the instruction it names (R72), and
every legal word is the word of the instruction it decodes to. -/
def Obligations.DecodeEncodeAgree : Prop :=
  (∀ i, WellFormed i = true → decode (encode i) = .ok i) ∧ (∀ i, decode (encode i) = .ok i.core) ∧
    (∀ c i, decode c = .ok i → encode i = c ∧ WellFormed i = true)

/-- R153, with the reserved words as R69 lists them (`op` 0 or 11..15; a legal `op` other than 4 with a bit of
7:4 set; `op` 4 with a bit of 7:5 set): `Command(c)` raises IllegalCommand, code 5, and changes nothing else. -/
def Obligations.ReservedWordRaisesIllegalCommand : Prop :=
  Err.illegalCommand.code = 5 ∧
  ∀ (s : State) (c : Byte) (rest : List HostEvent), s.host = .command c :: rest →
    (c.extractLsb' 0 4 = 0#4 ∨ c.extractLsb' 0 4 ≥ 11#4 ∨ (c.extractLsb' 0 4 ≠ 4#4 ∧ c.extractLsb' 4 4 ≠ 0#4) ∨
      (c.extractLsb' 0 4 = 4#4 ∧ c.extractLsb' 5 3 ≠ 0#3)) →
    step s = .next ((s.setHost rest).setErr .illegalCommand)

/-! ### Stepping -/

/-- A step whose next event is a legal command word is `exec` of the decoded command, with that one event
removed from the host's list and nothing else around it (R50, R52, R68). -/
def Obligations.StepRunsDecodedCommand : Prop :=
  ∀ (s : State) (c : Byte) (i : Instr) (rest : List HostEvent), s.host = .command c :: rest → decode c = .ok i →
    step s = exec i (s.setHost rest)

/-- R52: `RegWrite(0, v)` is `Command(v)`. -/
def Obligations.WriteOfCmdIsCommand : Prop :=
  ∀ (s : State) (v : Nat) (rest : List HostEvent), v < 256 →
    step (s.setHost (.regWrite 0 v :: rest)) = step (s.setHost (.command (BitVec.ofNat 8 v) :: rest))

/-- R171: with no transaction issued the block does nothing. The list of issued events is the model's own
(assumption log 1). -/
def Obligations.IdleWithoutEvent : Prop := ∀ s : State, s.host = [] → step s = .next s

/-- R28: every register is 0, every element of every memory is unwritten, and nothing is in progress. -/
def Obligations.ResetValues : Prop :=
  let s := State.reset
  s.err.code = 0 ∧ s.flags.toNat = 0 ∧ s.flags.cap = false ∧ s.flags.tf = false ∧ s.flags.rb = false ∧ s.w = 0 ∧
    s.h = 0 ∧ s.msgLen = 0 ∧ s.keyLen = 0 ∧ s.px = 0 ∧ s.py = 0 ∧ s.bitLen = 0 ∧ s.outLen = 0 ∧ s.pos = 0 ∧
    s.host = [] ∧ ∀ i, ¬s.msg.Written i ∧ ¬s.key.Written i ∧ ¬s.bits.Written i ∧ ¬s.out.Written i ∧ ¬s.pix.Written i

/-- R170: the reset event puts every register at its reset value and marks every element unwritten, whatever
the state was. What it leaves alone (parameters, queued events, last reply) is the model's (assumption log 9). -/
def Obligations.ResetEventClearsBlock : Prop :=
  ∀ (s : State) (rest : List HostEvent), s.host = .reset :: rest → ∃ t, step s = .next t ∧
    t.err = .noError ∧ t.flags.toNat = 0 ∧ t.w = 0 ∧ t.h = 0 ∧ t.msgLen = 0 ∧ t.keyLen = 0 ∧ t.px = 0 ∧ t.py = 0 ∧
    t.bitLen = 0 ∧ t.outLen = 0 ∧ t.pos = 0 ∧
    (∀ i, ¬t.msg.Written i ∧ ¬t.key.Written i ∧ ¬t.bits.Written i ∧ ¬t.out.Written i ∧ ¬t.pix.Written i) ∧
    t.widths = s.widths ∧ t.host = rest ∧ t.reply = s.reply

/-- The invariant holds at reset. -/
def Obligations.ResetMeetsInvariant : Prop := State.reset.Inv

/-- Every step keeps the invariant: legal parameters; every register within its width, so that no value a
rule computes overflows the register that receives it (R6, R11); `ERR` never holds MalformedTerminator or
EncodingMismatch (R156, R157); every memory canonical and within its capacity (R40, R53, R55). -/
def Obligations.StepKeepsInvariant : Prop := ∀ s t : State, s.Inv → step s = .next t → t.Inv

/-! ### Laws of all commands -/

/-- R155: a command that ends with an error has written `ERR` and nothing else, for every command word. -/
def Obligations.FailingCommandWritesOnlyErr : Prop :=
  ∀ (s t : State) (c : Byte), s.runCommand c = .next t → t.err ≠ .noError → t = s.setErr t.err

/-- R160: every command answers a next state, and the error code it leaves in `ERR` is exactly the matrix's;
a reserved word leaves IllegalCommand and nothing else. -/
def Obligations.ErrorMatrix : Prop :=
  (∀ (i : Instr) (s : State), ∃ t, exec i s = .next t ∧
    t.err.code =
      match i with
      | .scramble => if s.keyLen = 0 then 4 else 0
      | .unscramble => if s.keyLen = 0 then 4 else 0
      | .encode => if s.keyLen = 0 then 4 else 0
      | .decode => if s.keyLen = 0 then 4 else 0
      | .wrbit _ => if s.px ≥ s.w ∨ s.py ≥ s.h then 6 else 0
      | .rdbit => if s.px ≥ s.w ∨ s.py ≥ s.h then 6 else 0
      | .embed => 0
      | .extract => 0
      | .capchk => 0
      | .hide => if s.keyLen = 0 then 4 else if s.w * s.w < (s.msgLen + 3) * 8 then 1 else 0
      | .showCmd => if s.keyLen = 0 then 4 else 0) ∧
  ∀ (c : Byte) (s : State), (∀ i, decode c ≠ .ok i) → ∃ t, s.runCommand c = .next t ∧ t.err.code = 5

/-- R152: EmptyPassword is raised by every keyed command as its first check, and by no other command. -/
def Obligations.EmptyPasswordRejected : Prop :=
  (∀ (i : Instr) (s : State), i ∈ [.scramble, .unscramble, .encode, .decode, .hide, .showCmd] → s.keyLen = 0 →
    exec i s = .next (s.setErr .emptyPassword)) ∧
  (∀ (i : Instr) (s t : State), i ∈ [.wrbit false, .wrbit true, .rdbit, .embed, .extract, .capchk] →
    exec i s = .next t → t.err ≠ .emptyPassword)

/-- R154: WRBIT and RDBIT outside the grid raise OutOfRange and change nothing else. -/
def Obligations.OutOfRangeRejected : Prop :=
  ∀ (i : Instr) (s : State), i ∈ [.wrbit false, .wrbit true, .rdbit] → s.px ≥ s.w ∨ s.py ≥ s.h →
    exec i s = .next (s.setErr .outOfRange)

/-- No command writes an operand register, `MSG` or `KEY` (R12, R20, R21), nor the model's own fields. -/
def Obligations.CommandsKeepInputs : Prop :=
  ∀ (i : Instr) (s t : State), exec i s = .next t → s.SameInputs t

/-- R15: each flag changes only by its own commands, and only when they complete without error. -/
def Obligations.FlagWriters : Prop :=
  ∀ (i : Instr) (s t : State), exec i s = .next t →
    (t.flags.cap ≠ s.flags.cap → i = .capchk ∧ t.err = .noError) ∧
    (t.flags.tf ≠ s.flags.tf → (i = .decode ∨ i = .showCmd) ∧ t.err = .noError) ∧
    (t.flags.rb ≠ s.flags.rb → i = .rdbit ∧ t.err = .noError)

/-- The other registers and the memories a command writes (columns `BIT_LEN` to `PIX` of R29): nothing
outside its row changes. Of `BITS` that is the bitstream `BITS[0..BIT_LEN)`; what lies past it is unspecified
after every command (R22, U6). -/
def Obligations.ResultWriters : Prop :=
  ∀ (i : Instr) (s t : State), exec i s = .next t →
    (t.bitLen ≠ s.bitLen → i ∈ [.encode, .extract, .hide, .showCmd]) ∧
    (t.outLen ≠ s.outLen → i ∈ [.scramble, .unscramble, .decode, .showCmd]) ∧
    (t.pos ≠ s.pos → i ∈ [.encode, .decode, .embed, .extract, .hide, .showCmd]) ∧
    (¬s.SameBitstream t → i ∈ [.encode, .extract, .hide, .showCmd]) ∧
    (t.out ≠ s.out → i ∈ [.scramble, .unscramble, .decode, .showCmd]) ∧
    (t.pix ≠ s.pix → i ∈ [.wrbit false, .wrbit true, .embed, .hide])

/-- R22, R23 (U6, U8): after a command that completes, no element of `BITS` at or past `BIT_LEN` is written, and
each has taken a new free value; the same of `OUT` at and past `OUT_LEN` after SCRAMBLE, DECODE and SHOW. That a
free value stands for "unspecified" is assumption log 5 and 6. -/
def Obligations.TailsUnspecified : Prop :=
  ∀ (i : Instr) (s t : State), exec i s = .next t → t.err = .noError →
    (∀ k, k ≥ t.bitLen → ¬t.bits.Written k ∧ s.bits.drawOf k < t.bits.drawOf k ∧
      t.readBits k = Config.freeBits (t.bits.drawOf k) k) ∧
    (i ∈ [.scramble, .unscramble, .decode, .showCmd] → ∀ k, k ≥ t.outLen →
      ¬t.out.Written k ∧ s.out.drawOf k < t.out.drawOf k ∧ t.readOut k = Config.freeOut (t.out.drawOf k) k)

/-- R183: no command reads `POS`. Two runs that differ in `POS` alone end alike, `POS` itself being either
written alike or left as it was. -/
def Obligations.PosNeverRead : Prop :=
  ∀ (i : Instr) (s : State) (p : Nat), ∃ t u, exec i s = .next t ∧ exec i (s.setPos p) = .next u ∧
    u.setPos t.pos = t ∧ (u.pos = t.pos ∨ (t.pos = s.pos ∧ u.pos = p))

/-- R15: no command reads a flag. Two runs that differ in `FLAGS` alone end alike, each flag being either
written alike or left as it was. -/
def Obligations.FlagsNeverRead : Prop :=
  ∀ (i : Instr) (s : State) (f : Flags), ∃ t u, exec i s = .next t ∧ exec i (s.setFlags f) = .next u ∧
    u.setFlags t.flags = t ∧
    (u.flags.cap = t.flags.cap ∨ (t.flags.cap = s.flags.cap ∧ u.flags.cap = f.cap)) ∧
    (u.flags.tf = t.flags.tf ∨ (t.flags.tf = s.flags.tf ∧ u.flags.tf = f.tf)) ∧
    (u.flags.rb = t.flags.rb ∨ (t.flags.rb = s.flags.rb ∧ u.flags.rb = f.rb))

/-- R23: no command reads `OUT`. Two runs that differ in the content of `OUT` alone end alike in everything
else, and `OUT`'s own elements are either written alike or left as they were. -/
def Obligations.OutNeverRead : Prop :=
  ∀ (i : Instr) (s : State) (m : Memory Byte), ∃ t u, exec i s = .next t ∧ exec i (s.setOut m) = .next u ∧
    u.setOut t.out = t ∧ (u.out.cells = t.out.cells ∨ (t.out = s.out ∧ u.out = m))

/-- R63: no command changes `R`, `G` or `B[7:1]` of any pixel. -/
def Obligations.OnlyBlueLsbChanges : Prop :=
  ∀ (i : Instr) (s t : State), exec i s = .next t → ∀ x y,
    (t.readPix x y).r = (s.readPix x y).r ∧ (t.readPix x y).g = (s.readPix x y).g ∧
      (t.readPix x y).b.extractLsb' 1 7 = (s.readPix x y).b.extractLsb' 1 7

/-- R24: pixels outside the grid, `x ≥ W` or `y ≥ H`, are changed by no command. -/
def Obligations.PixelsOutsideGridKept : Prop :=
  ∀ (i : Instr) (s t : State), exec i s = .next t → ∀ x y, (x ≥ s.w ∨ y ≥ s.h) → t.readPix x y = s.readPix x y

/-- R184, R124, R112: `R`, `G` and `B[7:1]` have no influence on what the reading commands write. Two runs
whose grids have the same blue LSBs end alike but for the grid itself. -/
def Obligations.OnlyBlueLsbRead : Prop :=
  ∀ (i : Instr) (s : State) (m : Memory Pixel), i ∈ [.rdbit, .extract, .showCmd] →
    (∀ x y, ((s.setPix m).readPix x y).b.getLsbD 0 = (s.readPix x y).b.getLsbD 0) →
    ∃ t u, exec i s = .next t ∧ exec i (s.setPix m) = .next u ∧ u.setPix t.pix = t

/-- R172, R25: when every input of a command is written, no free value reaches its result: a run with other
free values ends in the same registers and the same written elements. -/
def Obligations.WrittenInputsHideFreeValues : Prop :=
  ∀ (i : Instr) (s : State) (d₁ d₂ d₃ d₄ d₅ : List Nat), s.InputsWritten i →
    ∃ t u, exec i s = .next t ∧ exec i (s.redraw d₁ d₂ d₃ d₄ d₅) = .next u ∧
      u.redraw [] [] [] [] [] = t.redraw [] [] [] [] []

/-! ### Family 1: scrambler -/

/-- R81, for SCRAMBLE and its alias. `OUT` past `MSG_LEN` and `BITS` past `BIT_LEN` are unspecified afterwards
(R22) and nothing is said of them. -/
def Obligations.ScrambleFillsOut : Prop :=
  decode 0x01#8 = .ok .scramble ∧
  ∀ (i : Instr) (s : State), i = .scramble ∨ i = .unscramble →
    (s.keyLen = 0 → exec i s = .next (s.setErr .emptyPassword)) ∧
    (s.keyLen ≠ 0 → ∃ t, exec i s = .next t ∧
      (∀ k, k < s.msgLen → t.readOut k = s.readMsg k ^^^ s.readKey (k % s.keyLen)) ∧
      t.outLen = s.msgLen ∧ t.err = .noError ∧ s.SameInputs t ∧ t.flags = s.flags ∧ t.bitLen = s.bitLen ∧
      t.pos = s.pos ∧ s.SameBitstream t ∧ t.pix = s.pix)

/-- R83: UNSCRAMBLE has SCRAMBLE's word and SCRAMBLE's effect, with no difference at all; the decoder undoes
the scrambling with the same operation, on the bytes it reassembled. -/
def Obligations.UnscrambleIsScramble : Prop :=
  encode .unscramble = 0x01#8 ∧ encode .unscramble = encode .scramble ∧
    (∀ s : State, exec .unscramble s = exec .scramble s) ∧
    ∀ (keyAt : Nat → Byte) (stream : List Bit),
      decodeStream keyAt stream = scrambleWith keyAt (bytesOfBits (stream.take (cutIndex stream)))

/-- R82, as a function and in hardware terms: SCRAMBLE, copy `OUT[0..OUT_LEN)` back into `MSG`, SCRAMBLE again
with the same password: `OUT` holds the original message. -/
def Obligations.ScrambleInvolution : Prop :=
  (∀ (keyAt : Nat → Byte) (b : List Byte), scrambleWith keyAt (scrambleWith keyAt b) = b) ∧
  ∀ s : State, s.keyLen ≠ 0 → ∃ t, exec .scramble s = .next t ∧
    ∀ m : Memory Byte, (∀ k, k < t.outLen → (t.setMsg m).readMsg k = t.readOut k) →
      ∃ u, exec .scramble (t.setMsg m) = .next u ∧ u.outLen = s.msgLen ∧ ∀ k, k < s.msgLen → u.readOut k = s.readMsg k

/-! ### Family 2: codec -/

/-- R42: byte `i` of a byte sequence occupies bits `8i .. 8i+7`, most-significant bit first; the inverse reads
the 8-bit group MSB first; the two are inverse to each other. -/
def Obligations.BitOrderMsbFirst : Prop :=
  (∀ (bytes : List Byte) (i j : Nat) (v : Byte), bytes[i]? = some v → j < 8 →
    (bitsOfBytes bytes)[8 * i + j]? = some (v.getLsbD (7 - j))) ∧
  (∀ (stream : List Bit) (i : Nat), 8 * i + 8 ≤ stream.length →
    (bytesOfBits stream)[i]? = some (byteOn (fun k => (stream[k]?).getD false) i)) ∧
  (∀ bytes : List Byte, bytesOfBits (bitsOfBytes bytes) = bytes) ∧
  (∀ b7 b6 b5 b4 b3 b2 b1 b0 : Bit,
    bitsOfByte (byteOfBits b7 b6 b5 b4 b3 b2 b1 b0) = [b7, b6, b5, b4, b3, b2, b1, b0])

/-- R91: ENCODE. `BITS` past the new `BIT_LEN` is unspecified afterwards and nothing is said of it. -/
def Obligations.EncodeBuildsStream : Prop :=
  decode 0x02#8 = .ok .encode ∧
  ∀ s : State,
    (s.keyLen = 0 → exec .encode s = .next (s.setErr .emptyPassword)) ∧
    (s.keyLen ≠ 0 → ∃ t, exec .encode s = .next t ∧
      (∀ i j, i < s.msgLen → j < 8 →
        t.readBits (8 * i + j) = (s.readMsg i ^^^ s.readKey (i % s.keyLen)).getLsbD (7 - j)) ∧
      (∀ r j, r < 3 → j < 8 →
        t.readBits (8 * (s.msgLen + r) + j) = ((termBytes[r]?).getD 0#8).getLsbD (7 - j)) ∧
      t.bitLen = 8 * (s.msgLen + 3) ∧ t.pos = 8 * (s.msgLen + 3) ∧ t.err = .noError ∧ s.SameInputs t ∧
      t.flags = s.flags ∧ t.outLen = s.outLen ∧ t.out = s.out ∧ t.pix = s.pix)

/-- R92: the facts (a) to (d) about an encoded stream. -/
def Obligations.EncodedStreamFacts : Prop :=
  ∀ (keyAt : Nat → Byte) (message : List Byte),
    let e := encodeStream keyAt message
    let n := message.length
    e.length = 8 * n + 24 ∧ TermIn e (8 * n) ∧ (∃ p, findTerm e = some p ∧ p ≤ 8 * n) ∧
    (∀ q, q < 8 * n → TermIn e q → q + 24 ≤ 8 * n ∧ 3 ≤ n) ∧
    ((∃ q, q < 8 * n ∧ TermIn e q) ↔ ∃ q, TermIn (bitsOfBytes (scrambleWith keyAt message)) q) ∧
    ∀ tail, findTerm (e ++ tail) = findTerm e

/-- R96: DECODE. `OUT` past the new `OUT_LEN` and `BITS` past `BIT_LEN` are unspecified afterwards (R22) and
nothing is said of them. -/
def Obligations.DecodeCutsAndUnscrambles : Prop :=
  decode 0x03#8 = .ok .decode ∧
  ∀ s : State,
    (s.keyLen = 0 → exec .decode s = .next (s.setErr .emptyPassword)) ∧
    (s.keyLen ≠ 0 → ∃ t, exec .decode s = .next t ∧
      CutOn s.readBits s.bitLen t.pos t.flags.tf ∧ t.outLen = t.pos / 8 ∧
      (∀ i, i < t.outLen → t.readOut i = byteOn s.readBits i ^^^ s.readKey (i % s.keyLen)) ∧
      t.flags.cap = s.flags.cap ∧ t.flags.rb = s.flags.rb ∧ t.err = .noError ∧ s.SameInputs t ∧
      t.bitLen = s.bitLen ∧ s.SameBitstream t ∧ t.pix = s.pix)

/-- R100: the round trip of the codec, with any tail after the stream. -/
def Obligations.CodecRoundTrip : Prop :=
  ∀ (keyAt : Nat → Byte) (message : List Byte) (tail : List Bit),
    findTerm (encodeStream keyAt message) = some (8 * message.length) →
      decodeStream keyAt (encodeStream keyAt message ++ tail) = message ∧
        cutIndex (encodeStream keyAt message ++ tail) = 8 * message.length ∧
        (findTerm (encodeStream keyAt message ++ tail)).isSome = true

/-! ### Family 3: pixel channel -/

/-- R113, R114: bit isolation, read after write, the last write decides, rewriting the bit read changes
nothing. -/
def Obligations.PixelBitLaws : Prop :=
  ∀ (p : Pixel) (a b : Bit),
    (writeBit p b).r = p.r ∧ (writeBit p b).g = p.g ∧ (writeBit p b).b.extractLsb' 1 7 = p.b.extractLsb' 1 7 ∧
      (writeBit p b).b.getLsbD 0 = b ∧ readBit (writeBit p b) = b ∧
      writeBit (writeBit p a) b = writeBit p b ∧ writeBit p (readBit p) = p

/-- R111: WRBIT. `BITS` past `BIT_LEN` is unspecified afterwards (R22) and nothing is said of it. -/
def Obligations.WrbitWritesOneBlueBit : Prop :=
  decode 0x04#8 = .ok (.wrbit false) ∧ decode 0x14#8 = .ok (.wrbit true) ∧
  ∀ (b : Bit) (s : State),
    (s.px ≥ s.w ∨ s.py ≥ s.h → exec (.wrbit b) s = .next (s.setErr .outOfRange)) ∧
    (s.px < s.w → s.py < s.h → ∃ t, exec (.wrbit b) s = .next t ∧
      t.readPix s.px s.py =
        { r := (s.readPix s.px s.py).r, g := (s.readPix s.px s.py).g,
          b := ((s.readPix s.px s.py).b &&& 0xFE#8) ||| (BitVec.ofBool b).setWidth 8 } ∧
      (∀ x y, ¬(x = s.px ∧ y = s.py) → t.readPix x y = s.readPix x y) ∧
      t.err = .noError ∧ s.SameInputs t ∧ t.flags = s.flags ∧ t.bitLen = s.bitLen ∧ t.outLen = s.outLen ∧
      t.pos = s.pos ∧ s.SameBitstream t ∧ t.out = s.out)

/-- R112: RDBIT. `BITS` past `BIT_LEN` is unspecified afterwards (R22) and nothing is said of it; everything else
of the next state is. -/
def Obligations.RdbitReadsBlueLsb : Prop :=
  decode 0x05#8 = .ok .rdbit ∧
  ∀ s : State,
    (s.px ≥ s.w ∨ s.py ≥ s.h → exec .rdbit s = .next (s.setErr .outOfRange)) ∧
    (s.px < s.w → s.py < s.h → ∃ t, exec .rdbit s = .next t ∧ s.SameBitstream t ∧
      t = { s with
        flags := { s.flags with rb := (s.readPix s.px s.py).b.getLsbD 0 }
        err := .noError
        bits := t.bits })

/-- R114 in hardware terms: RDBIT after WRBIT `b` at the same coordinates reads `b`. -/
def Obligations.RdbitAfterWrbit : Prop :=
  ∀ (b : Bit) (s : State), s.px < s.w → s.py < s.h →
    ∃ t u, exec (.wrbit b) s = .next t ∧ exec .rdbit t = .next u ∧ u.flags.rb = b ∧ u.err = .noError ∧ u.pix = t.pix

/-! ### Family 4: engine -/

/-- R121: EMBED, with R120's `embed`, the stop of R122 and the truncation of R123. `BITS` past `BIT_LEN` is
unspecified afterwards (R22) and nothing is said of it. -/
def Obligations.EmbedWritesRowMajor : Prop :=
  decode 0x06#8 = .ok .embed ∧
  ∀ s : State, ∃ t, exec .embed s = .next t ∧ t.pos = min s.bitLen (s.w * s.h) ∧
    (∀ k, k < t.pos → t.pixelOfBit k = writeBit (s.pixelOfBit k) (s.readBits k)) ∧
    (∀ x y, ¬(x < s.w ∧ y < s.h ∧ y * s.w + x < t.pos) → t.readPix x y = s.readPix x y) ∧
    t.err = .noError ∧ s.SameInputs t ∧ t.flags = s.flags ∧ t.bitLen = s.bitLen ∧ t.outLen = s.outLen ∧
    s.SameBitstream t ∧ t.out = s.out

/-- R121, R124: the nested loops of the two pseudocodes, `y` outer and `x` inner, compute what the model's
one loop over the cursor computes: the cursor, the grid and the extracted stream, as data. -/
def Obligations.LoopsAreRowMajor : Prop :=
  (∀ s : State, s.embedLoops = (min s.bitLen (s.w * s.h), s.embedGrid)) ∧
    (∀ s : State, s.extractLoops = s.extractStream)

/-- R124: EXTRACT. `BITS` past the new `BIT_LEN` is unspecified afterwards and nothing is said of it. -/
def Obligations.ExtractReadsRowMajor : Prop :=
  decode 0x07#8 = .ok .extract ∧
  ∀ s : State, ∃ t, exec .extract s = .next t ∧ t.bitLen = s.w * s.h ∧ t.pos = s.w * s.h ∧
    (∀ k, k < s.w * s.h → t.readBits k = (s.readPix (k % s.w) (k / s.w)).b.getLsbD 0) ∧
    t.err = .noError ∧ s.SameInputs t ∧ t.flags = s.flags ∧ t.outLen = s.outLen ∧ t.out = s.out ∧ t.pix = s.pix

/-- R125: what EXTRACT reads after EMBED is the first bits of the stream, then the untouched pixels' own
bits; EMBED of what EXTRACT read changes no pixel; EMBED twice is EMBED once. -/
def Obligations.ExtractAfterEmbed : Prop :=
  (∀ s : State, ∃ t u, exec .embed s = .next t ∧ exec .extract t = .next u ∧ u.bitLen = s.w * s.h ∧
    ∀ k, k < s.w * s.h → u.readBits k = if k < min s.bitLen (s.w * s.h) then s.readBits k else s.gridBit k) ∧
  (∀ s : State, ∃ t u, exec .extract s = .next t ∧ exec .embed t = .next u ∧
    ∀ x y, u.readPix x y = s.readPix x y) ∧
  (∀ s : State, ∃ t u, exec .embed s = .next t ∧ exec .embed t = .next u ∧
    ∀ x y, u.readPix x y = t.readPix x y)

/-! ### Family 5: capacity -/

/-- R132: CAPCHK; nothing but `W` and `MSG_LEN` is read. `BITS` past `BIT_LEN` is unspecified afterwards (R22) and
nothing is said of it; everything else of the next state is. -/
def Obligations.CapchkComparesSquare : Prop :=
  decode 0x08#8 = .ok .capchk ∧
  ∀ s : State, ∃ t, exec .capchk s = .next t ∧ s.SameBitstream t ∧
    t = { s with
      flags := { s.flags with cap := decide ((s.msgLen + 3) * 8 ≤ s.w * s.w) }
      err := .noError
      bits := t.bits }

/-- R133: CAPCHK answers 1 at the boundary `W × W = (MSG_LEN + 3) × 8`, never goes from 1 to 0 when `W` grows
or `MSG_LEN` shrinks, and answers 0 one byte of message more or one pixel of width less. -/
def Obligations.CapacityBoundary : Prop :=
  (∀ s : State, s.w * s.w = (s.msgLen + 3) * 8 → ∃ t, exec .capchk s = .next t ∧ t.flags.cap = true) ∧
  (∀ s s' : State, s.w ≤ s'.w → s'.msgLen ≤ s.msgLen → ∃ t t', exec .capchk s = .next t ∧
    exec .capchk s' = .next t' ∧ (t.flags.cap = true → t'.flags.cap = true)) ∧
  (∀ s : State, ∃ t, exec .capchk s = .next t ∧
    (s.w = 8 ∧ s.msgLen = 5 → t.flags.cap = true) ∧ (s.w = 8 ∧ s.msgLen = 6 → t.flags.cap = false) ∧
    (s.w = 7 ∧ s.msgLen = 5 → t.flags.cap = false))

/-! ### Family 6: pipelines -/

/-- R141: HIDE. `BITS` is unspecified afterwards and nothing is said of it. -/
def Obligations.HideEmbedsEncodedMessage : Prop :=
  decode 0x09#8 = .ok .hide ∧
  ∀ s : State,
    (s.keyLen = 0 → exec .hide s = .next (s.setErr .emptyPassword)) ∧
    (s.keyLen ≠ 0 → s.w * s.w < (s.msgLen + 3) * 8 → exec .hide s = .next (s.setErr .capacityExceeded)) ∧
    (s.keyLen ≠ 0 → (s.msgLen + 3) * 8 ≤ s.w * s.w → ∃ t, exec .hide s = .next t ∧
      t.pos = min (8 * (s.msgLen + 3)) (s.w * s.h) ∧
      (∀ k, k < t.pos → t.pixelOfBit k = writeBit (s.pixelOfBit k) (s.streamBit k)) ∧
      (∀ x y, ¬(x < s.w ∧ y < s.h ∧ y * s.w + x < t.pos) → t.readPix x y = s.readPix x y) ∧
      t.bitLen = 0 ∧ t.err = .noError ∧ s.SameInputs t ∧ t.flags = s.flags ∧ t.outLen = s.outLen ∧ t.out = s.out)

/-- R142: SHOW. `BITS`, and `OUT` past the new `OUT_LEN`, are unspecified afterwards and nothing is said of
them. -/
def Obligations.ShowDecodesGrid : Prop :=
  decode 0x0A#8 = .ok .showCmd ∧
  ∀ s : State,
    (s.keyLen = 0 → exec .showCmd s = .next (s.setErr .emptyPassword)) ∧
    (s.keyLen ≠ 0 → ∃ t, exec .showCmd s = .next t ∧
      CutOn s.gridBit (s.w * s.h) t.pos t.flags.tf ∧ t.outLen = t.pos / 8 ∧
      (∀ i, i < t.outLen → t.readOut i = byteOn s.gridBit i ^^^ s.readKey (i % s.keyLen)) ∧
      t.bitLen = 0 ∧ t.flags.cap = s.flags.cap ∧ t.flags.rb = s.flags.rb ∧ t.err = .noError ∧ s.SameInputs t ∧
      t.pix = s.pix)

/-- R144: HIDE followed by SHOW gives the message back, when both capacities suffice and the scrambled
message does not contain the terminator pattern. -/
def Obligations.HideShowRoundTrip : Prop :=
  ∀ s : State, s.keyLen ≠ 0 → 8 * (s.msgLen + 3) ≤ s.w * s.w → 8 * (s.msgLen + 3) ≤ s.w * s.h →
    (∀ q, ¬TermOn s.streamBit (8 * s.msgLen) q) →
    ∃ t u, exec .hide s = .next t ∧ exec .showCmd t = .next u ∧ u.err = .noError ∧ u.flags.tf = true ∧
      u.pos = 8 * s.msgLen ∧ u.outLen = s.msgLen ∧ ∀ k, k < s.msgLen → u.readOut k = s.readMsg k

/-- R99: a payload that contains the pattern is cut at its first occurrence, so that fewer bytes than the
message come back. -/
def Obligations.FalseTerminatorCutsMessage : Prop :=
  ∀ (s : State) (q : Nat), s.keyLen ≠ 0 → TermOn s.streamBit (8 * s.msgLen) q →
    ∃ t u, exec .encode s = .next t ∧ exec .decode t = .next u ∧ u.err = .noError ∧ u.flags.tf = true ∧ u.pos ≤ q ∧
      u.outLen < s.msgLen

/-- R145: HIDE is ENCODE then EMBED, SHOW is EXTRACT then DECODE, but for `BIT_LEN` (and the discarded
`BITS`). -/
def Obligations.PipelinesAreSequences : Prop :=
  (∀ s : State, s.keyLen ≠ 0 → (s.msgLen + 3) * 8 ≤ s.w * s.w →
    ∃ a b t, exec .encode s = .next a ∧ exec .embed a = .next b ∧ exec .hide s = .next t ∧ t.pix = b.pix ∧
      t.pos = b.pos ∧ t.bitLen = 0 ∧ b.bitLen = 8 * (s.msgLen + 3) ∧
      t = (b.setBits t.bits).setBitLen 0) ∧
  (∀ s : State, s.keyLen ≠ 0 →
    ∃ a b t, exec .extract s = .next a ∧ exec .decode a = .next b ∧ exec .showCmd s = .next t ∧ t.out = b.out ∧
      t.outLen = b.outLen ∧ t.pos = b.pos ∧ t.flags.tf = b.flags.tf ∧ t.bitLen = 0 ∧ b.bitLen = s.w * s.h ∧
      t = (b.setBits t.bits).setBitLen 0)

/-! ### Host interface -/

/-- R15, R150: the numbers `ERR` and `FLAGS` read as; bits 7:3 of `FLAGS` are 0. -/
def Obligations.StatusNumbers : Prop :=
  (Err.code .noError = 0 ∧ Err.code .capacityExceeded = 1 ∧ Err.code .malformedTerminator = 2 ∧
    Err.code .encodingMismatch = 3 ∧ Err.code .emptyPassword = 4 ∧ Err.code .illegalCommand = 5 ∧
    Err.code .outOfRange = 6) ∧
  ∀ f : Flags, f.toNat < 8 ∧ f.toNat.testBit 0 = f.cap ∧ f.toNat.testBit 1 = f.tf ∧ f.toNat.testBit 2 = f.rb

/-- R11, R19: a host read of a readable register returns its value and changes nothing but the reply. -/
def Obligations.RegReadReturnsValue : Prop :=
  ∀ (s : State) (rest : List HostEvent) (p : Nat × Nat),
    p ∈ [(1, s.err.code), (2, s.flags.toNat), (3, s.w), (4, s.h), (5, s.msgLen), (6, s.keyLen), (7, s.px), (8, s.py),
      (9, s.bitLen), (10, s.outLen), (11, s.pos)] →
    s.host = .regRead p.1 :: rest → step s = .next { s with host := rest, reply := some (.num p.2) }

/-- R11, R19: a host write of a fitting value to a read/write register replaces that register and nothing
else. -/
def Obligations.RegWriteReplacesRegister : Prop :=
  ∀ (s : State) (rest : List HostEvent) (v : Nat),
    (v < 2 ^ s.widths.dimBits →
      step (s.setHost (.regWrite 3 v :: rest)) = .next { s with host := rest, w := v } ∧
      step (s.setHost (.regWrite 4 v :: rest)) = .next { s with host := rest, h := v } ∧
      step (s.setHost (.regWrite 7 v :: rest)) = .next { s with host := rest, px := v } ∧
      step (s.setHost (.regWrite 8 v :: rest)) = .next { s with host := rest, py := v }) ∧
    (v < 2 ^ s.widths.lenBits →
      step (s.setHost (.regWrite 5 v :: rest)) = .next { s with host := rest, msgLen := v } ∧
      step (s.setHost (.regWrite 6 v :: rest)) = .next { s with host := rest, keyLen := v }) ∧
    (v < 2 ^ s.widths.posBits →
      step (s.setHost (.regWrite 9 v :: rest)) = .next { s with host := rest, bitLen := v })

/-- R19: the undefined register transactions stop, each by its name. That a register number above 11 is a
fault and the others are refusals is the model's choice (assumption log 7). -/
def Obligations.UndefinedRegisterAccessStops : Prop :=
  ∀ (s : State) (rest : List HostEvent) (v : Nat),
    step (s.setHost (.regRead 0 :: rest)) = .refused .readOfCmd ∧
    (∀ n, n ∈ [1, 2, 10, 11] → step (s.setHost (.regWrite n v :: rest)) = .refused .writeOfReadOnly) ∧
    (∀ n, n > 11 → step (s.setHost (.regRead n :: rest)) = .fault .noSuchRegister ∧
      step (s.setHost (.regWrite n v :: rest)) = .fault .noSuchRegister) ∧
    (v ≥ 2 ^ 8 → step (s.setHost (.regWrite 0 v :: rest)) = .refused .valueTooWide) ∧
    (v ≥ 2 ^ s.widths.dimBits → ∀ n, n ∈ [3, 4, 7, 8] →
      step (s.setHost (.regWrite n v :: rest)) = .refused .valueTooWide) ∧
    (v ≥ 2 ^ s.widths.lenBits → ∀ n, n ∈ [5, 6] →
      step (s.setHost (.regWrite n v :: rest)) = .refused .valueTooWide) ∧
    (v ≥ 2 ^ s.widths.posBits → step (s.setHost (.regWrite 9 v :: rest)) = .refused .valueTooWide)

/-- R52, R53: a host write of one element, then a read of it, gives the value written; every other element
of every memory reads as before, and so does every register. -/
def Obligations.HostWriteThenRead : Prop :=
  ∀ (s : State) (e : Element) (v : HostValue), e.inCapacity s.widths = true → v.Fits e →
    ∃ t, s.hostEvent (.memWrite e v) = .next t ∧ t.hostEvent (.memRead e) = .next (t.setReply v) ∧
      (∀ e', e' ≠ e → t.readElement e' = s.readElement e') ∧ s.SameRegisters t ∧ t.host = s.host ∧ t.reply = s.reply

/-- R52: the two memory transactions through a step. A read of any element, whoever wrote it, replies its
value (its free value while unwritten, assumption log 5) and changes nothing else; a write is the host write of
that element with the event removed. Where the reply is kept is the model's (assumption log 3). -/
def Obligations.StepPerformsMemoryTransactions : Prop :=
  (∀ (s : State) (rest : List HostEvent) (e : Element), e.inCapacity s.widths = true →
    step (s.setHost (.memRead e :: rest)) =
      .next ((s.setHost rest).setReply
        (match e with
        | .msg i => .num (s.readMsg i).toNat
        | .key i => .num (s.readKey i).toNat
        | .bits k => .num (s.readBits k).toNat
        | .out i => .num (s.readOut i).toNat
        | .pix x y => .rgb (s.readPix x y).r.toNat (s.readPix x y).g.toNat (s.readPix x y).b.toNat))) ∧
  ∀ (s : State) (rest : List HostEvent) (e : Element) (v : HostValue),
    step (s.setHost (.memWrite e v :: rest)) = (s.setHost rest).hostEvent (.memWrite e v)

/-- R53: a host access outside a memory's capacity, or of a value that does not fit, is no defined
transaction. The names of the stops are the model's choice (assumption log 7). -/
def Obligations.UndefinedMemoryAccessStops : Prop :=
  ∀ (s : State) (e : Element) (v : HostValue),
    (e.inCapacity s.widths = false →
      s.hostEvent (.memRead e) = .fault .outsideCapacity ∧ s.hostEvent (.memWrite e v) = .fault .outsideCapacity) ∧
    (e.inCapacity s.widths = true → ¬v.Fits e → s.hostEvent (.memWrite e v) = .refused .valueTooWide)

/-- R53, R5: the capacities of the five memories, for all widths. -/
def Obligations.CapacityBounds : Prop :=
  ∀ c : Config.Widths, ∀ i x y : Nat,
    ((Element.msg i).inCapacity c = true ↔ i + 1 ≤ 2 ^ c.lenBits - 1) ∧
    ((Element.key i).inCapacity c = true ↔ i + 1 ≤ 2 ^ c.lenBits - 1) ∧
    ((Element.bits i).inCapacity c = true ↔ i + 1 ≤ 2 ^ c.posBits - 1) ∧
    ((Element.out i).inCapacity c = true ↔ i + 1 ≤ 2 ^ c.posBits - 1) ∧
    ((Element.pix x y).inCapacity c = true ↔ x + 1 ≤ 2 ^ c.dimBits - 1 ∧ y + 1 ≤ 2 ^ c.dimBits - 1)

/-- R71, with the register numbers of R11: the transactions each line of a host program stands for, and no
others. `load` on `PIX` is stated for one pixel, as the spec's programs use it (for several: assumption log 11). -/
def Obligations.HostLineTransactions : Prop :=
  (RegName.cmd.no = 0 ∧ RegName.err.no = 1 ∧ RegName.flags.no = 2 ∧ RegName.w.no = 3 ∧ RegName.h.no = 4 ∧
    RegName.msgLen.no = 5 ∧ RegName.keyLen.no = 6 ∧ RegName.px.no = 7 ∧ RegName.py.no = 8 ∧
    RegName.bitLen.no = 9 ∧ RegName.outLen.no = 10 ∧ RegName.pos.no = 11) ∧
  (∀ (w h v : Nat) (r : RegName), (HostLine.set r v).events w h = [.regWrite r.no v] ∧
    (HostLine.get r).events w h = [.regRead r.no]) ∧
  (∀ (w h : Nat) (e : Element), (HostLine.peek e).events w h = [.memRead e]) ∧
  (∀ (w h i : Nat) (vs : List HostValue),
    (HostLine.load (.msg i) vs).events w h = vs.mapIdx (fun k v => .memWrite (.msg (i + k)) v) ∧
    (HostLine.load (.key i) vs).events w h = vs.mapIdx (fun k v => .memWrite (.key (i + k)) v) ∧
    (HostLine.load (.bits i) vs).events w h = vs.mapIdx (fun k v => .memWrite (.bits (i + k)) v) ∧
    (HostLine.load (.out i) vs).events w h = vs.mapIdx (fun k v => .memWrite (.out (i + k)) v)) ∧
  (∀ (w h x y : Nat) (v : HostValue), (HostLine.load (.pix x y) [v]).events w h = [.memWrite (.pix x y) v]) ∧
  (∀ w h r g b : Nat, ((HostLine.fill r g b).events w h).length = w * h ∧
    ∀ e, e ∈ (HostLine.fill r g b).events w h ↔ ∃ x y, x < w ∧ y < h ∧ e = .memWrite (.pix x y) (.rgb r g b)) ∧
  (∀ (w h : Nat) (i : Instr), (HostLine.command i).events w h = [.command (encode i)]) ∧
  ∀ b : Bit, encode (.wrbit b) = 0x04#8 ||| ((BitVec.ofBool b).setWidth 8 <<< 4)

/-- R71, R50: a program issued line by line and then stepped to its end does what executing its lines from top to
bottom does, each `fill` with the `W` and `H` its turn finds, after the events `es` issued before it; a
transaction that is not defined stops both alike. -/
def Obligations.IssuedProgramRunsTopToBottom : Prop :=
  ∀ (s : State) (es : List HostEvent) (ls : List HostLine),
    stepMany ((s.setHost es).issueProgram ls).host.length ((s.setHost es).issueProgram ls) =
      match performAll es (s.setHost []) with
      | .next t => runProgram ls t
      | .fault f => .fault f
      | .refused r => .refused r
end

