-- ==== Sys2Proof/Laws/State.lean ====
section
/-! SUPPORT. One lemma per field per update of State, true by rfl, so that no proof unfolds a record update. -/

namespace Sys2Proof.Machine

/-! ### setErr -/

@[simp] theorem State.setErr_widths (s : State) (e : Err) : (s.setErr e).widths = s.widths := rfl
@[simp] theorem State.setErr_err (s : State) (e : Err) : (s.setErr e).err = e := rfl
@[simp] theorem State.setErr_flags (s : State) (e : Err) : (s.setErr e).flags = s.flags := rfl
@[simp] theorem State.setErr_w (s : State) (e : Err) : (s.setErr e).w = s.w := rfl
@[simp] theorem State.setErr_h (s : State) (e : Err) : (s.setErr e).h = s.h := rfl
@[simp] theorem State.setErr_msgLen (s : State) (e : Err) : (s.setErr e).msgLen = s.msgLen := rfl
@[simp] theorem State.setErr_keyLen (s : State) (e : Err) : (s.setErr e).keyLen = s.keyLen := rfl
@[simp] theorem State.setErr_px (s : State) (e : Err) : (s.setErr e).px = s.px := rfl
@[simp] theorem State.setErr_py (s : State) (e : Err) : (s.setErr e).py = s.py := rfl
@[simp] theorem State.setErr_bitLen (s : State) (e : Err) : (s.setErr e).bitLen = s.bitLen := rfl
@[simp] theorem State.setErr_outLen (s : State) (e : Err) : (s.setErr e).outLen = s.outLen := rfl
@[simp] theorem State.setErr_pos (s : State) (e : Err) : (s.setErr e).pos = s.pos := rfl
@[simp] theorem State.setErr_msg (s : State) (e : Err) : (s.setErr e).msg = s.msg := rfl
@[simp] theorem State.setErr_key (s : State) (e : Err) : (s.setErr e).key = s.key := rfl
@[simp] theorem State.setErr_bits (s : State) (e : Err) : (s.setErr e).bits = s.bits := rfl
@[simp] theorem State.setErr_out (s : State) (e : Err) : (s.setErr e).out = s.out := rfl
@[simp] theorem State.setErr_pix (s : State) (e : Err) : (s.setErr e).pix = s.pix := rfl
@[simp] theorem State.setErr_host (s : State) (e : Err) : (s.setErr e).host = s.host := rfl
@[simp] theorem State.setErr_reply (s : State) (e : Err) : (s.setErr e).reply = s.reply := rfl

@[simp] theorem State.setErr_setErr (s : State) (e e' : Err) : (s.setErr e).setErr e' = s.setErr e' := rfl

/-! ### setFlags -/

@[simp] theorem State.setFlags_widths (s : State) (f : Flags) : (s.setFlags f).widths = s.widths := rfl
@[simp] theorem State.setFlags_err (s : State) (f : Flags) : (s.setFlags f).err = s.err := rfl
@[simp] theorem State.setFlags_flags (s : State) (f : Flags) : (s.setFlags f).flags = f := rfl
@[simp] theorem State.setFlags_w (s : State) (f : Flags) : (s.setFlags f).w = s.w := rfl
@[simp] theorem State.setFlags_h (s : State) (f : Flags) : (s.setFlags f).h = s.h := rfl
@[simp] theorem State.setFlags_msgLen (s : State) (f : Flags) : (s.setFlags f).msgLen = s.msgLen := rfl
@[simp] theorem State.setFlags_keyLen (s : State) (f : Flags) : (s.setFlags f).keyLen = s.keyLen := rfl
@[simp] theorem State.setFlags_px (s : State) (f : Flags) : (s.setFlags f).px = s.px := rfl
@[simp] theorem State.setFlags_py (s : State) (f : Flags) : (s.setFlags f).py = s.py := rfl
@[simp] theorem State.setFlags_bitLen (s : State) (f : Flags) : (s.setFlags f).bitLen = s.bitLen := rfl
@[simp] theorem State.setFlags_outLen (s : State) (f : Flags) : (s.setFlags f).outLen = s.outLen := rfl
@[simp] theorem State.setFlags_pos (s : State) (f : Flags) : (s.setFlags f).pos = s.pos := rfl
@[simp] theorem State.setFlags_msg (s : State) (f : Flags) : (s.setFlags f).msg = s.msg := rfl
@[simp] theorem State.setFlags_key (s : State) (f : Flags) : (s.setFlags f).key = s.key := rfl
@[simp] theorem State.setFlags_bits (s : State) (f : Flags) : (s.setFlags f).bits = s.bits := rfl
@[simp] theorem State.setFlags_out (s : State) (f : Flags) : (s.setFlags f).out = s.out := rfl
@[simp] theorem State.setFlags_pix (s : State) (f : Flags) : (s.setFlags f).pix = s.pix := rfl
@[simp] theorem State.setFlags_host (s : State) (f : Flags) : (s.setFlags f).host = s.host := rfl
@[simp] theorem State.setFlags_reply (s : State) (f : Flags) : (s.setFlags f).reply = s.reply := rfl

@[simp] theorem State.setFlags_setFlags (s : State) (f f' : Flags) : (s.setFlags f).setFlags f' = s.setFlags f' := rfl

/-! ### setBitLen -/

@[simp] theorem State.setBitLen_widths (s : State) (n : Nat) : (s.setBitLen n).widths = s.widths := rfl
@[simp] theorem State.setBitLen_err (s : State) (n : Nat) : (s.setBitLen n).err = s.err := rfl
@[simp] theorem State.setBitLen_flags (s : State) (n : Nat) : (s.setBitLen n).flags = s.flags := rfl
@[simp] theorem State.setBitLen_w (s : State) (n : Nat) : (s.setBitLen n).w = s.w := rfl
@[simp] theorem State.setBitLen_h (s : State) (n : Nat) : (s.setBitLen n).h = s.h := rfl
@[simp] theorem State.setBitLen_msgLen (s : State) (n : Nat) : (s.setBitLen n).msgLen = s.msgLen := rfl
@[simp] theorem State.setBitLen_keyLen (s : State) (n : Nat) : (s.setBitLen n).keyLen = s.keyLen := rfl
@[simp] theorem State.setBitLen_px (s : State) (n : Nat) : (s.setBitLen n).px = s.px := rfl
@[simp] theorem State.setBitLen_py (s : State) (n : Nat) : (s.setBitLen n).py = s.py := rfl
@[simp] theorem State.setBitLen_bitLen (s : State) (n : Nat) : (s.setBitLen n).bitLen = n := rfl
@[simp] theorem State.setBitLen_outLen (s : State) (n : Nat) : (s.setBitLen n).outLen = s.outLen := rfl
@[simp] theorem State.setBitLen_pos (s : State) (n : Nat) : (s.setBitLen n).pos = s.pos := rfl
@[simp] theorem State.setBitLen_msg (s : State) (n : Nat) : (s.setBitLen n).msg = s.msg := rfl
@[simp] theorem State.setBitLen_key (s : State) (n : Nat) : (s.setBitLen n).key = s.key := rfl
@[simp] theorem State.setBitLen_bits (s : State) (n : Nat) : (s.setBitLen n).bits = s.bits := rfl
@[simp] theorem State.setBitLen_out (s : State) (n : Nat) : (s.setBitLen n).out = s.out := rfl
@[simp] theorem State.setBitLen_pix (s : State) (n : Nat) : (s.setBitLen n).pix = s.pix := rfl
@[simp] theorem State.setBitLen_host (s : State) (n : Nat) : (s.setBitLen n).host = s.host := rfl
@[simp] theorem State.setBitLen_reply (s : State) (n : Nat) : (s.setBitLen n).reply = s.reply := rfl

@[simp] theorem State.setBitLen_setBitLen (s : State) (n n' : Nat) : (s.setBitLen n).setBitLen n' = s.setBitLen n' := rfl

/-! ### setPos -/

@[simp] theorem State.setPos_widths (s : State) (n : Nat) : (s.setPos n).widths = s.widths := rfl
@[simp] theorem State.setPos_err (s : State) (n : Nat) : (s.setPos n).err = s.err := rfl
@[simp] theorem State.setPos_flags (s : State) (n : Nat) : (s.setPos n).flags = s.flags := rfl
@[simp] theorem State.setPos_w (s : State) (n : Nat) : (s.setPos n).w = s.w := rfl
@[simp] theorem State.setPos_h (s : State) (n : Nat) : (s.setPos n).h = s.h := rfl
@[simp] theorem State.setPos_msgLen (s : State) (n : Nat) : (s.setPos n).msgLen = s.msgLen := rfl
@[simp] theorem State.setPos_keyLen (s : State) (n : Nat) : (s.setPos n).keyLen = s.keyLen := rfl
@[simp] theorem State.setPos_px (s : State) (n : Nat) : (s.setPos n).px = s.px := rfl
@[simp] theorem State.setPos_py (s : State) (n : Nat) : (s.setPos n).py = s.py := rfl
@[simp] theorem State.setPos_bitLen (s : State) (n : Nat) : (s.setPos n).bitLen = s.bitLen := rfl
@[simp] theorem State.setPos_outLen (s : State) (n : Nat) : (s.setPos n).outLen = s.outLen := rfl
@[simp] theorem State.setPos_pos (s : State) (n : Nat) : (s.setPos n).pos = n := rfl
@[simp] theorem State.setPos_msg (s : State) (n : Nat) : (s.setPos n).msg = s.msg := rfl
@[simp] theorem State.setPos_key (s : State) (n : Nat) : (s.setPos n).key = s.key := rfl
@[simp] theorem State.setPos_bits (s : State) (n : Nat) : (s.setPos n).bits = s.bits := rfl
@[simp] theorem State.setPos_out (s : State) (n : Nat) : (s.setPos n).out = s.out := rfl
@[simp] theorem State.setPos_pix (s : State) (n : Nat) : (s.setPos n).pix = s.pix := rfl
@[simp] theorem State.setPos_host (s : State) (n : Nat) : (s.setPos n).host = s.host := rfl
@[simp] theorem State.setPos_reply (s : State) (n : Nat) : (s.setPos n).reply = s.reply := rfl

@[simp] theorem State.setPos_setPos (s : State) (n n' : Nat) : (s.setPos n).setPos n' = s.setPos n' := rfl

/-! ### setMsg -/

@[simp] theorem State.setMsg_widths (s : State) (m : Memory Byte) : (s.setMsg m).widths = s.widths := rfl
@[simp] theorem State.setMsg_err (s : State) (m : Memory Byte) : (s.setMsg m).err = s.err := rfl
@[simp] theorem State.setMsg_flags (s : State) (m : Memory Byte) : (s.setMsg m).flags = s.flags := rfl
@[simp] theorem State.setMsg_w (s : State) (m : Memory Byte) : (s.setMsg m).w = s.w := rfl
@[simp] theorem State.setMsg_h (s : State) (m : Memory Byte) : (s.setMsg m).h = s.h := rfl
@[simp] theorem State.setMsg_msgLen (s : State) (m : Memory Byte) : (s.setMsg m).msgLen = s.msgLen := rfl
@[simp] theorem State.setMsg_keyLen (s : State) (m : Memory Byte) : (s.setMsg m).keyLen = s.keyLen := rfl
@[simp] theorem State.setMsg_px (s : State) (m : Memory Byte) : (s.setMsg m).px = s.px := rfl
@[simp] theorem State.setMsg_py (s : State) (m : Memory Byte) : (s.setMsg m).py = s.py := rfl
@[simp] theorem State.setMsg_bitLen (s : State) (m : Memory Byte) : (s.setMsg m).bitLen = s.bitLen := rfl
@[simp] theorem State.setMsg_outLen (s : State) (m : Memory Byte) : (s.setMsg m).outLen = s.outLen := rfl
@[simp] theorem State.setMsg_pos (s : State) (m : Memory Byte) : (s.setMsg m).pos = s.pos := rfl
@[simp] theorem State.setMsg_msg (s : State) (m : Memory Byte) : (s.setMsg m).msg = m := rfl
@[simp] theorem State.setMsg_key (s : State) (m : Memory Byte) : (s.setMsg m).key = s.key := rfl
@[simp] theorem State.setMsg_bits (s : State) (m : Memory Byte) : (s.setMsg m).bits = s.bits := rfl
@[simp] theorem State.setMsg_out (s : State) (m : Memory Byte) : (s.setMsg m).out = s.out := rfl
@[simp] theorem State.setMsg_pix (s : State) (m : Memory Byte) : (s.setMsg m).pix = s.pix := rfl
@[simp] theorem State.setMsg_host (s : State) (m : Memory Byte) : (s.setMsg m).host = s.host := rfl
@[simp] theorem State.setMsg_reply (s : State) (m : Memory Byte) : (s.setMsg m).reply = s.reply := rfl

@[simp] theorem State.setMsg_setMsg (s : State) (m m' : Memory Byte) : (s.setMsg m).setMsg m' = s.setMsg m' := rfl

/-! ### setKey -/

@[simp] theorem State.setKey_widths (s : State) (m : Memory Byte) : (s.setKey m).widths = s.widths := rfl
@[simp] theorem State.setKey_err (s : State) (m : Memory Byte) : (s.setKey m).err = s.err := rfl
@[simp] theorem State.setKey_flags (s : State) (m : Memory Byte) : (s.setKey m).flags = s.flags := rfl
@[simp] theorem State.setKey_w (s : State) (m : Memory Byte) : (s.setKey m).w = s.w := rfl
@[simp] theorem State.setKey_h (s : State) (m : Memory Byte) : (s.setKey m).h = s.h := rfl
@[simp] theorem State.setKey_msgLen (s : State) (m : Memory Byte) : (s.setKey m).msgLen = s.msgLen := rfl
@[simp] theorem State.setKey_keyLen (s : State) (m : Memory Byte) : (s.setKey m).keyLen = s.keyLen := rfl
@[simp] theorem State.setKey_px (s : State) (m : Memory Byte) : (s.setKey m).px = s.px := rfl
@[simp] theorem State.setKey_py (s : State) (m : Memory Byte) : (s.setKey m).py = s.py := rfl
@[simp] theorem State.setKey_bitLen (s : State) (m : Memory Byte) : (s.setKey m).bitLen = s.bitLen := rfl
@[simp] theorem State.setKey_outLen (s : State) (m : Memory Byte) : (s.setKey m).outLen = s.outLen := rfl
@[simp] theorem State.setKey_pos (s : State) (m : Memory Byte) : (s.setKey m).pos = s.pos := rfl
@[simp] theorem State.setKey_msg (s : State) (m : Memory Byte) : (s.setKey m).msg = s.msg := rfl
@[simp] theorem State.setKey_key (s : State) (m : Memory Byte) : (s.setKey m).key = m := rfl
@[simp] theorem State.setKey_bits (s : State) (m : Memory Byte) : (s.setKey m).bits = s.bits := rfl
@[simp] theorem State.setKey_out (s : State) (m : Memory Byte) : (s.setKey m).out = s.out := rfl
@[simp] theorem State.setKey_pix (s : State) (m : Memory Byte) : (s.setKey m).pix = s.pix := rfl
@[simp] theorem State.setKey_host (s : State) (m : Memory Byte) : (s.setKey m).host = s.host := rfl
@[simp] theorem State.setKey_reply (s : State) (m : Memory Byte) : (s.setKey m).reply = s.reply := rfl

@[simp] theorem State.setKey_setKey (s : State) (m m' : Memory Byte) : (s.setKey m).setKey m' = s.setKey m' := rfl

/-! ### setBits -/

@[simp] theorem State.setBits_widths (s : State) (m : Memory Bit) : (s.setBits m).widths = s.widths := rfl
@[simp] theorem State.setBits_err (s : State) (m : Memory Bit) : (s.setBits m).err = s.err := rfl
@[simp] theorem State.setBits_flags (s : State) (m : Memory Bit) : (s.setBits m).flags = s.flags := rfl
@[simp] theorem State.setBits_w (s : State) (m : Memory Bit) : (s.setBits m).w = s.w := rfl
@[simp] theorem State.setBits_h (s : State) (m : Memory Bit) : (s.setBits m).h = s.h := rfl
@[simp] theorem State.setBits_msgLen (s : State) (m : Memory Bit) : (s.setBits m).msgLen = s.msgLen := rfl
@[simp] theorem State.setBits_keyLen (s : State) (m : Memory Bit) : (s.setBits m).keyLen = s.keyLen := rfl
@[simp] theorem State.setBits_px (s : State) (m : Memory Bit) : (s.setBits m).px = s.px := rfl
@[simp] theorem State.setBits_py (s : State) (m : Memory Bit) : (s.setBits m).py = s.py := rfl
@[simp] theorem State.setBits_bitLen (s : State) (m : Memory Bit) : (s.setBits m).bitLen = s.bitLen := rfl
@[simp] theorem State.setBits_outLen (s : State) (m : Memory Bit) : (s.setBits m).outLen = s.outLen := rfl
@[simp] theorem State.setBits_pos (s : State) (m : Memory Bit) : (s.setBits m).pos = s.pos := rfl
@[simp] theorem State.setBits_msg (s : State) (m : Memory Bit) : (s.setBits m).msg = s.msg := rfl
@[simp] theorem State.setBits_key (s : State) (m : Memory Bit) : (s.setBits m).key = s.key := rfl
@[simp] theorem State.setBits_bits (s : State) (m : Memory Bit) : (s.setBits m).bits = m := rfl
@[simp] theorem State.setBits_out (s : State) (m : Memory Bit) : (s.setBits m).out = s.out := rfl
@[simp] theorem State.setBits_pix (s : State) (m : Memory Bit) : (s.setBits m).pix = s.pix := rfl
@[simp] theorem State.setBits_host (s : State) (m : Memory Bit) : (s.setBits m).host = s.host := rfl
@[simp] theorem State.setBits_reply (s : State) (m : Memory Bit) : (s.setBits m).reply = s.reply := rfl

@[simp] theorem State.setBits_setBits (s : State) (m m' : Memory Bit) : (s.setBits m).setBits m' = s.setBits m' := rfl

/-! ### setOut -/

@[simp] theorem State.setOut_widths (s : State) (m : Memory Byte) : (s.setOut m).widths = s.widths := rfl
@[simp] theorem State.setOut_err (s : State) (m : Memory Byte) : (s.setOut m).err = s.err := rfl
@[simp] theorem State.setOut_flags (s : State) (m : Memory Byte) : (s.setOut m).flags = s.flags := rfl
@[simp] theorem State.setOut_w (s : State) (m : Memory Byte) : (s.setOut m).w = s.w := rfl
@[simp] theorem State.setOut_h (s : State) (m : Memory Byte) : (s.setOut m).h = s.h := rfl
@[simp] theorem State.setOut_msgLen (s : State) (m : Memory Byte) : (s.setOut m).msgLen = s.msgLen := rfl
@[simp] theorem State.setOut_keyLen (s : State) (m : Memory Byte) : (s.setOut m).keyLen = s.keyLen := rfl
@[simp] theorem State.setOut_px (s : State) (m : Memory Byte) : (s.setOut m).px = s.px := rfl
@[simp] theorem State.setOut_py (s : State) (m : Memory Byte) : (s.setOut m).py = s.py := rfl
@[simp] theorem State.setOut_bitLen (s : State) (m : Memory Byte) : (s.setOut m).bitLen = s.bitLen := rfl
@[simp] theorem State.setOut_outLen (s : State) (m : Memory Byte) : (s.setOut m).outLen = s.outLen := rfl
@[simp] theorem State.setOut_pos (s : State) (m : Memory Byte) : (s.setOut m).pos = s.pos := rfl
@[simp] theorem State.setOut_msg (s : State) (m : Memory Byte) : (s.setOut m).msg = s.msg := rfl
@[simp] theorem State.setOut_key (s : State) (m : Memory Byte) : (s.setOut m).key = s.key := rfl
@[simp] theorem State.setOut_bits (s : State) (m : Memory Byte) : (s.setOut m).bits = s.bits := rfl
@[simp] theorem State.setOut_out (s : State) (m : Memory Byte) : (s.setOut m).out = m := rfl
@[simp] theorem State.setOut_pix (s : State) (m : Memory Byte) : (s.setOut m).pix = s.pix := rfl
@[simp] theorem State.setOut_host (s : State) (m : Memory Byte) : (s.setOut m).host = s.host := rfl
@[simp] theorem State.setOut_reply (s : State) (m : Memory Byte) : (s.setOut m).reply = s.reply := rfl

@[simp] theorem State.setOut_setOut (s : State) (m m' : Memory Byte) : (s.setOut m).setOut m' = s.setOut m' := rfl

/-! ### setPix -/

@[simp] theorem State.setPix_widths (s : State) (m : Memory Pixel) : (s.setPix m).widths = s.widths := rfl
@[simp] theorem State.setPix_err (s : State) (m : Memory Pixel) : (s.setPix m).err = s.err := rfl
@[simp] theorem State.setPix_flags (s : State) (m : Memory Pixel) : (s.setPix m).flags = s.flags := rfl
@[simp] theorem State.setPix_w (s : State) (m : Memory Pixel) : (s.setPix m).w = s.w := rfl
@[simp] theorem State.setPix_h (s : State) (m : Memory Pixel) : (s.setPix m).h = s.h := rfl
@[simp] theorem State.setPix_msgLen (s : State) (m : Memory Pixel) : (s.setPix m).msgLen = s.msgLen := rfl
@[simp] theorem State.setPix_keyLen (s : State) (m : Memory Pixel) : (s.setPix m).keyLen = s.keyLen := rfl
@[simp] theorem State.setPix_px (s : State) (m : Memory Pixel) : (s.setPix m).px = s.px := rfl
@[simp] theorem State.setPix_py (s : State) (m : Memory Pixel) : (s.setPix m).py = s.py := rfl
@[simp] theorem State.setPix_bitLen (s : State) (m : Memory Pixel) : (s.setPix m).bitLen = s.bitLen := rfl
@[simp] theorem State.setPix_outLen (s : State) (m : Memory Pixel) : (s.setPix m).outLen = s.outLen := rfl
@[simp] theorem State.setPix_pos (s : State) (m : Memory Pixel) : (s.setPix m).pos = s.pos := rfl
@[simp] theorem State.setPix_msg (s : State) (m : Memory Pixel) : (s.setPix m).msg = s.msg := rfl
@[simp] theorem State.setPix_key (s : State) (m : Memory Pixel) : (s.setPix m).key = s.key := rfl
@[simp] theorem State.setPix_bits (s : State) (m : Memory Pixel) : (s.setPix m).bits = s.bits := rfl
@[simp] theorem State.setPix_out (s : State) (m : Memory Pixel) : (s.setPix m).out = s.out := rfl
@[simp] theorem State.setPix_pix (s : State) (m : Memory Pixel) : (s.setPix m).pix = m := rfl
@[simp] theorem State.setPix_host (s : State) (m : Memory Pixel) : (s.setPix m).host = s.host := rfl
@[simp] theorem State.setPix_reply (s : State) (m : Memory Pixel) : (s.setPix m).reply = s.reply := rfl

@[simp] theorem State.setPix_setPix (s : State) (m m' : Memory Pixel) : (s.setPix m).setPix m' = s.setPix m' := rfl

/-! ### setHost -/

@[simp] theorem State.setHost_widths (s : State) (es : List HostEvent) : (s.setHost es).widths = s.widths := rfl
@[simp] theorem State.setHost_err (s : State) (es : List HostEvent) : (s.setHost es).err = s.err := rfl
@[simp] theorem State.setHost_flags (s : State) (es : List HostEvent) : (s.setHost es).flags = s.flags := rfl
@[simp] theorem State.setHost_w (s : State) (es : List HostEvent) : (s.setHost es).w = s.w := rfl
@[simp] theorem State.setHost_h (s : State) (es : List HostEvent) : (s.setHost es).h = s.h := rfl
@[simp] theorem State.setHost_msgLen (s : State) (es : List HostEvent) : (s.setHost es).msgLen = s.msgLen := rfl
@[simp] theorem State.setHost_keyLen (s : State) (es : List HostEvent) : (s.setHost es).keyLen = s.keyLen := rfl
@[simp] theorem State.setHost_px (s : State) (es : List HostEvent) : (s.setHost es).px = s.px := rfl
@[simp] theorem State.setHost_py (s : State) (es : List HostEvent) : (s.setHost es).py = s.py := rfl
@[simp] theorem State.setHost_bitLen (s : State) (es : List HostEvent) : (s.setHost es).bitLen = s.bitLen := rfl
@[simp] theorem State.setHost_outLen (s : State) (es : List HostEvent) : (s.setHost es).outLen = s.outLen := rfl
@[simp] theorem State.setHost_pos (s : State) (es : List HostEvent) : (s.setHost es).pos = s.pos := rfl
@[simp] theorem State.setHost_msg (s : State) (es : List HostEvent) : (s.setHost es).msg = s.msg := rfl
@[simp] theorem State.setHost_key (s : State) (es : List HostEvent) : (s.setHost es).key = s.key := rfl
@[simp] theorem State.setHost_bits (s : State) (es : List HostEvent) : (s.setHost es).bits = s.bits := rfl
@[simp] theorem State.setHost_out (s : State) (es : List HostEvent) : (s.setHost es).out = s.out := rfl
@[simp] theorem State.setHost_pix (s : State) (es : List HostEvent) : (s.setHost es).pix = s.pix := rfl
@[simp] theorem State.setHost_host (s : State) (es : List HostEvent) : (s.setHost es).host = es := rfl
@[simp] theorem State.setHost_reply (s : State) (es : List HostEvent) : (s.setHost es).reply = s.reply := rfl

@[simp] theorem State.setHost_setHost (s : State) (es es' : List HostEvent) : (s.setHost es).setHost es' = s.setHost es' := rfl

/-! ### setReply -/

@[simp] theorem State.setReply_widths (s : State) (v : HostValue) : (s.setReply v).widths = s.widths := rfl
@[simp] theorem State.setReply_err (s : State) (v : HostValue) : (s.setReply v).err = s.err := rfl
@[simp] theorem State.setReply_flags (s : State) (v : HostValue) : (s.setReply v).flags = s.flags := rfl
@[simp] theorem State.setReply_w (s : State) (v : HostValue) : (s.setReply v).w = s.w := rfl
@[simp] theorem State.setReply_h (s : State) (v : HostValue) : (s.setReply v).h = s.h := rfl
@[simp] theorem State.setReply_msgLen (s : State) (v : HostValue) : (s.setReply v).msgLen = s.msgLen := rfl
@[simp] theorem State.setReply_keyLen (s : State) (v : HostValue) : (s.setReply v).keyLen = s.keyLen := rfl
@[simp] theorem State.setReply_px (s : State) (v : HostValue) : (s.setReply v).px = s.px := rfl
@[simp] theorem State.setReply_py (s : State) (v : HostValue) : (s.setReply v).py = s.py := rfl
@[simp] theorem State.setReply_bitLen (s : State) (v : HostValue) : (s.setReply v).bitLen = s.bitLen := rfl
@[simp] theorem State.setReply_outLen (s : State) (v : HostValue) : (s.setReply v).outLen = s.outLen := rfl
@[simp] theorem State.setReply_pos (s : State) (v : HostValue) : (s.setReply v).pos = s.pos := rfl
@[simp] theorem State.setReply_msg (s : State) (v : HostValue) : (s.setReply v).msg = s.msg := rfl
@[simp] theorem State.setReply_key (s : State) (v : HostValue) : (s.setReply v).key = s.key := rfl
@[simp] theorem State.setReply_bits (s : State) (v : HostValue) : (s.setReply v).bits = s.bits := rfl
@[simp] theorem State.setReply_out (s : State) (v : HostValue) : (s.setReply v).out = s.out := rfl
@[simp] theorem State.setReply_pix (s : State) (v : HostValue) : (s.setReply v).pix = s.pix := rfl
@[simp] theorem State.setReply_host (s : State) (v : HostValue) : (s.setReply v).host = s.host := rfl
@[simp] theorem State.setReply_reply (s : State) (v : HostValue) : (s.setReply v).reply = some v := rfl

@[simp] theorem State.setReply_setReply (s : State) (v v' : HostValue) : (s.setReply v).setReply v' = s.setReply v' := rfl

/-! ### raise -/

@[simp] theorem State.raise_eq (s : State) (e : Err) : s.raise e = s.setErr e := rfl

/-! ### complete -/

@[simp] theorem State.complete_widths (s : State) : s.complete.widths = s.widths := rfl
@[simp] theorem State.complete_err (s : State) : s.complete.err = .noError := rfl
@[simp] theorem State.complete_flags (s : State) : s.complete.flags = s.flags := rfl
@[simp] theorem State.complete_w (s : State) : s.complete.w = s.w := rfl
@[simp] theorem State.complete_h (s : State) : s.complete.h = s.h := rfl
@[simp] theorem State.complete_msgLen (s : State) : s.complete.msgLen = s.msgLen := rfl
@[simp] theorem State.complete_keyLen (s : State) : s.complete.keyLen = s.keyLen := rfl
@[simp] theorem State.complete_px (s : State) : s.complete.px = s.px := rfl
@[simp] theorem State.complete_py (s : State) : s.complete.py = s.py := rfl
@[simp] theorem State.complete_bitLen (s : State) : s.complete.bitLen = s.bitLen := rfl
@[simp] theorem State.complete_outLen (s : State) : s.complete.outLen = s.outLen := rfl
@[simp] theorem State.complete_pos (s : State) : s.complete.pos = s.pos := rfl
@[simp] theorem State.complete_msg (s : State) : s.complete.msg = s.msg := rfl
@[simp] theorem State.complete_key (s : State) : s.complete.key = s.key := rfl
@[simp] theorem State.complete_bits (s : State) : s.complete.bits = s.bits.forgetFrom s.bitLen := rfl
@[simp] theorem State.complete_out (s : State) : s.complete.out = s.out := rfl
@[simp] theorem State.complete_pix (s : State) : s.complete.pix = s.pix := rfl
@[simp] theorem State.complete_host (s : State) : s.complete.host = s.host := rfl
@[simp] theorem State.complete_reply (s : State) : s.complete.reply = s.reply := rfl

/-! ### Result flags -/

@[simp] theorem Flags.withCap_cap (f : Flags) (v : Bit) : (f.withCap v).cap = v := rfl
@[simp] theorem Flags.withCap_tf (f : Flags) (v : Bit) : (f.withCap v).tf = f.tf := rfl
@[simp] theorem Flags.withCap_rb (f : Flags) (v : Bit) : (f.withCap v).rb = f.rb := rfl
@[simp] theorem Flags.withTf_cap (f : Flags) (v : Bit) : (f.withTf v).cap = f.cap := rfl
@[simp] theorem Flags.withTf_tf (f : Flags) (v : Bit) : (f.withTf v).tf = v := rfl
@[simp] theorem Flags.withTf_rb (f : Flags) (v : Bit) : (f.withTf v).rb = f.rb := rfl
@[simp] theorem Flags.withRb_cap (f : Flags) (v : Bit) : (f.withRb v).cap = f.cap := rfl
@[simp] theorem Flags.withRb_tf (f : Flags) (v : Bit) : (f.withRb v).tf = f.tf := rfl
@[simp] theorem Flags.withRb_rb (f : Flags) (v : Bit) : (f.withRb v).rb = v := rfl

/-! ### What the reads of memory depend on -/

theorem State.readMsg_congr {s t : State} (h : t.msg = s.msg) : t.readMsg = s.readMsg := by
  funext i; simp only [State.readMsg, h]
theorem State.readKey_congr {s t : State} (h : t.key = s.key) : t.readKey = s.readKey := by
  funext i; simp only [State.readKey, h]
theorem State.readBits_congr {s t : State} (h : t.bits = s.bits) : t.readBits = s.readBits := by
  funext i; simp only [State.readBits, h]
theorem State.readOut_congr {s t : State} (h : t.out = s.out) : t.readOut = s.readOut := by
  funext i; simp only [State.readOut, h]
theorem State.readPix_congr {s t : State} (h : t.pix = s.pix) : t.readPix = s.readPix := by
  funext x y; simp only [State.readPix, h]
theorem State.keyByte_congr {s t : State} (h : t.key = s.key) (hl : t.keyLen = s.keyLen) : t.keyByte = s.keyByte := by
  funext i; simp only [State.keyByte, State.readKey, h, hl]
theorem State.message_congr {s t : State} (h : t.msg = s.msg) (hl : t.msgLen = s.msgLen) : t.message = s.message := by
  simp only [State.message, State.readMsg_congr h, hl]
theorem State.bitstream_congr {s t : State} (h : t.bits = s.bits) (hl : t.bitLen = s.bitLen) :
    t.bitstream = s.bitstream := by
  simp only [State.bitstream, State.readBits_congr h, hl]

end Sys2Proof.Machine
end

