-- ==== Sys2Proof/Laws/Bodies.lean ====
section
/-! SUPPORT. One lemma per field per command body: what the body writes, and that it leaves the rest alone. -/

namespace Sys2Proof.Machine

/-! ### SCRAMBLE's body (40_scrambler.md R81) -/

@[simp] theorem State.scrambleBody_widths (s : State) : s.scrambleBody.widths = s.widths := rfl
@[simp] theorem State.scrambleBody_err (s : State) : s.scrambleBody.err = s.err := rfl
@[simp] theorem State.scrambleBody_flags (s : State) : s.scrambleBody.flags = s.flags := rfl
@[simp] theorem State.scrambleBody_w (s : State) : s.scrambleBody.w = s.w := rfl
@[simp] theorem State.scrambleBody_h (s : State) : s.scrambleBody.h = s.h := rfl
@[simp] theorem State.scrambleBody_msgLen (s : State) : s.scrambleBody.msgLen = s.msgLen := rfl
@[simp] theorem State.scrambleBody_keyLen (s : State) : s.scrambleBody.keyLen = s.keyLen := rfl
@[simp] theorem State.scrambleBody_px (s : State) : s.scrambleBody.px = s.px := rfl
@[simp] theorem State.scrambleBody_py (s : State) : s.scrambleBody.py = s.py := rfl
@[simp] theorem State.scrambleBody_bitLen (s : State) : s.scrambleBody.bitLen = s.bitLen := rfl
@[simp] theorem State.scrambleBody_outLen (s : State) : s.scrambleBody.outLen = s.msgLen := rfl
@[simp] theorem State.scrambleBody_pos (s : State) : s.scrambleBody.pos = s.pos := rfl
@[simp] theorem State.scrambleBody_msg (s : State) : s.scrambleBody.msg = s.msg := rfl
@[simp] theorem State.scrambleBody_key (s : State) : s.scrambleBody.key = s.key := rfl
@[simp] theorem State.scrambleBody_bits (s : State) : s.scrambleBody.bits = s.bits := rfl
@[simp] theorem State.scrambleBody_out (s : State) : s.scrambleBody.out = s.out.fresh (scrambleWith s.keyByte s.message) := rfl
@[simp] theorem State.scrambleBody_pix (s : State) : s.scrambleBody.pix = s.pix := rfl
@[simp] theorem State.scrambleBody_host (s : State) : s.scrambleBody.host = s.host := rfl
@[simp] theorem State.scrambleBody_reply (s : State) : s.scrambleBody.reply = s.reply := rfl

/-! ### ENCODE's body (41_codec.md R91) -/

@[simp] theorem State.encodeBody_widths (s : State) : s.encodeBody.widths = s.widths := rfl
@[simp] theorem State.encodeBody_err (s : State) : s.encodeBody.err = s.err := rfl
@[simp] theorem State.encodeBody_flags (s : State) : s.encodeBody.flags = s.flags := rfl
@[simp] theorem State.encodeBody_w (s : State) : s.encodeBody.w = s.w := rfl
@[simp] theorem State.encodeBody_h (s : State) : s.encodeBody.h = s.h := rfl
@[simp] theorem State.encodeBody_msgLen (s : State) : s.encodeBody.msgLen = s.msgLen := rfl
@[simp] theorem State.encodeBody_keyLen (s : State) : s.encodeBody.keyLen = s.keyLen := rfl
@[simp] theorem State.encodeBody_px (s : State) : s.encodeBody.px = s.px := rfl
@[simp] theorem State.encodeBody_py (s : State) : s.encodeBody.py = s.py := rfl
@[simp] theorem State.encodeBody_bitLen (s : State) : s.encodeBody.bitLen = 8 * (s.msgLen + 3) := rfl
@[simp] theorem State.encodeBody_outLen (s : State) : s.encodeBody.outLen = s.outLen := rfl
@[simp] theorem State.encodeBody_pos (s : State) : s.encodeBody.pos = 8 * (s.msgLen + 3) := rfl
@[simp] theorem State.encodeBody_msg (s : State) : s.encodeBody.msg = s.msg := rfl
@[simp] theorem State.encodeBody_key (s : State) : s.encodeBody.key = s.key := rfl
@[simp] theorem State.encodeBody_bits (s : State) : s.encodeBody.bits = s.bits.fresh (encodeStream s.keyByte s.message) := rfl
@[simp] theorem State.encodeBody_out (s : State) : s.encodeBody.out = s.out := rfl
@[simp] theorem State.encodeBody_pix (s : State) : s.encodeBody.pix = s.pix := rfl
@[simp] theorem State.encodeBody_host (s : State) : s.encodeBody.host = s.host := rfl
@[simp] theorem State.encodeBody_reply (s : State) : s.encodeBody.reply = s.reply := rfl

/-! ### DECODE's body (41_codec.md R96) -/

@[simp] theorem State.decodeBody_widths (s : State) : s.decodeBody.widths = s.widths := rfl
@[simp] theorem State.decodeBody_err (s : State) : s.decodeBody.err = s.err := rfl
@[simp] theorem State.decodeBody_flags (s : State) : s.decodeBody.flags = s.flags.withTf (findTerm s.bitstream).isSome := rfl
@[simp] theorem State.decodeBody_w (s : State) : s.decodeBody.w = s.w := rfl
@[simp] theorem State.decodeBody_h (s : State) : s.decodeBody.h = s.h := rfl
@[simp] theorem State.decodeBody_msgLen (s : State) : s.decodeBody.msgLen = s.msgLen := rfl
@[simp] theorem State.decodeBody_keyLen (s : State) : s.decodeBody.keyLen = s.keyLen := rfl
@[simp] theorem State.decodeBody_px (s : State) : s.decodeBody.px = s.px := rfl
@[simp] theorem State.decodeBody_py (s : State) : s.decodeBody.py = s.py := rfl
@[simp] theorem State.decodeBody_bitLen (s : State) : s.decodeBody.bitLen = s.bitLen := rfl
@[simp] theorem State.decodeBody_outLen (s : State) : s.decodeBody.outLen = cutIndex s.bitstream / 8 := rfl
@[simp] theorem State.decodeBody_pos (s : State) : s.decodeBody.pos = cutIndex s.bitstream := rfl
@[simp] theorem State.decodeBody_msg (s : State) : s.decodeBody.msg = s.msg := rfl
@[simp] theorem State.decodeBody_key (s : State) : s.decodeBody.key = s.key := rfl
@[simp] theorem State.decodeBody_bits (s : State) : s.decodeBody.bits = s.bits := rfl
@[simp] theorem State.decodeBody_out (s : State) : s.decodeBody.out = s.out.fresh (decodeStream s.keyByte s.bitstream) := rfl
@[simp] theorem State.decodeBody_pix (s : State) : s.decodeBody.pix = s.pix := rfl
@[simp] theorem State.decodeBody_host (s : State) : s.decodeBody.host = s.host := rfl
@[simp] theorem State.decodeBody_reply (s : State) : s.decodeBody.reply = s.reply := rfl

/-! ### EMBED's body (43_engine.md R121) -/

@[simp] theorem State.embedBody_widths (s : State) : s.embedBody.widths = s.widths := rfl
@[simp] theorem State.embedBody_err (s : State) : s.embedBody.err = s.err := rfl
@[simp] theorem State.embedBody_flags (s : State) : s.embedBody.flags = s.flags := rfl
@[simp] theorem State.embedBody_w (s : State) : s.embedBody.w = s.w := rfl
@[simp] theorem State.embedBody_h (s : State) : s.embedBody.h = s.h := rfl
@[simp] theorem State.embedBody_msgLen (s : State) : s.embedBody.msgLen = s.msgLen := rfl
@[simp] theorem State.embedBody_keyLen (s : State) : s.embedBody.keyLen = s.keyLen := rfl
@[simp] theorem State.embedBody_px (s : State) : s.embedBody.px = s.px := rfl
@[simp] theorem State.embedBody_py (s : State) : s.embedBody.py = s.py := rfl
@[simp] theorem State.embedBody_bitLen (s : State) : s.embedBody.bitLen = s.bitLen := rfl
@[simp] theorem State.embedBody_outLen (s : State) : s.embedBody.outLen = s.outLen := rfl
@[simp] theorem State.embedBody_pos (s : State) : s.embedBody.pos = s.embedCount := rfl
@[simp] theorem State.embedBody_msg (s : State) : s.embedBody.msg = s.msg := rfl
@[simp] theorem State.embedBody_key (s : State) : s.embedBody.key = s.key := rfl
@[simp] theorem State.embedBody_bits (s : State) : s.embedBody.bits = s.bits := rfl
@[simp] theorem State.embedBody_out (s : State) : s.embedBody.out = s.out := rfl
@[simp] theorem State.embedBody_pix (s : State) : s.embedBody.pix = s.embedGrid := rfl
@[simp] theorem State.embedBody_host (s : State) : s.embedBody.host = s.host := rfl
@[simp] theorem State.embedBody_reply (s : State) : s.embedBody.reply = s.reply := rfl

/-! ### EXTRACT's body (43_engine.md R124) -/

@[simp] theorem State.extractBody_widths (s : State) : s.extractBody.widths = s.widths := rfl
@[simp] theorem State.extractBody_err (s : State) : s.extractBody.err = s.err := rfl
@[simp] theorem State.extractBody_flags (s : State) : s.extractBody.flags = s.flags := rfl
@[simp] theorem State.extractBody_w (s : State) : s.extractBody.w = s.w := rfl
@[simp] theorem State.extractBody_h (s : State) : s.extractBody.h = s.h := rfl
@[simp] theorem State.extractBody_msgLen (s : State) : s.extractBody.msgLen = s.msgLen := rfl
@[simp] theorem State.extractBody_keyLen (s : State) : s.extractBody.keyLen = s.keyLen := rfl
@[simp] theorem State.extractBody_px (s : State) : s.extractBody.px = s.px := rfl
@[simp] theorem State.extractBody_py (s : State) : s.extractBody.py = s.py := rfl
@[simp] theorem State.extractBody_bitLen (s : State) : s.extractBody.bitLen = s.gridSize := rfl
@[simp] theorem State.extractBody_outLen (s : State) : s.extractBody.outLen = s.outLen := rfl
@[simp] theorem State.extractBody_pos (s : State) : s.extractBody.pos = s.gridSize := rfl
@[simp] theorem State.extractBody_msg (s : State) : s.extractBody.msg = s.msg := rfl
@[simp] theorem State.extractBody_key (s : State) : s.extractBody.key = s.key := rfl
@[simp] theorem State.extractBody_bits (s : State) : s.extractBody.bits = s.bits.fresh s.extractStream := rfl
@[simp] theorem State.extractBody_out (s : State) : s.extractBody.out = s.out := rfl
@[simp] theorem State.extractBody_pix (s : State) : s.extractBody.pix = s.pix := rfl
@[simp] theorem State.extractBody_host (s : State) : s.extractBody.host = s.host := rfl
@[simp] theorem State.extractBody_reply (s : State) : s.extractBody.reply = s.reply := rfl

/-! ### discarding the bitstream (10_state.md R18) -/

@[simp] theorem State.discardBits_widths (s : State) : s.discardBits.widths = s.widths := rfl
@[simp] theorem State.discardBits_err (s : State) : s.discardBits.err = s.err := rfl
@[simp] theorem State.discardBits_flags (s : State) : s.discardBits.flags = s.flags := rfl
@[simp] theorem State.discardBits_w (s : State) : s.discardBits.w = s.w := rfl
@[simp] theorem State.discardBits_h (s : State) : s.discardBits.h = s.h := rfl
@[simp] theorem State.discardBits_msgLen (s : State) : s.discardBits.msgLen = s.msgLen := rfl
@[simp] theorem State.discardBits_keyLen (s : State) : s.discardBits.keyLen = s.keyLen := rfl
@[simp] theorem State.discardBits_px (s : State) : s.discardBits.px = s.px := rfl
@[simp] theorem State.discardBits_py (s : State) : s.discardBits.py = s.py := rfl
@[simp] theorem State.discardBits_bitLen (s : State) : s.discardBits.bitLen = 0 := rfl
@[simp] theorem State.discardBits_outLen (s : State) : s.discardBits.outLen = s.outLen := rfl
@[simp] theorem State.discardBits_pos (s : State) : s.discardBits.pos = s.pos := rfl
@[simp] theorem State.discardBits_msg (s : State) : s.discardBits.msg = s.msg := rfl
@[simp] theorem State.discardBits_key (s : State) : s.discardBits.key = s.key := rfl
@[simp] theorem State.discardBits_bits (s : State) : s.discardBits.bits = s.bits := rfl
@[simp] theorem State.discardBits_out (s : State) : s.discardBits.out = s.out := rfl
@[simp] theorem State.discardBits_pix (s : State) : s.discardBits.pix = s.pix := rfl
@[simp] theorem State.discardBits_host (s : State) : s.discardBits.host = s.host := rfl
@[simp] theorem State.discardBits_reply (s : State) : s.discardBits.reply = s.reply := rfl

end Sys2Proof.Machine
end

