-- ==== Sys2Proof/Laws/Memory.lean ====
section
/-! SUPPORT. The basic laws of the memory operations: read after write, every other element left alone, a
fresh buffer, and the canonical form kept. -/

namespace Sys2Proof.Machine

variable {α : Type}

theorem lookup_insert_same (l : List (Nat × α)) (i : Nat) (v : α) : lookupCell (insertCell l i v) i = some v := by
  induction l with
  | nil => simp [insertCell, lookupCell]
  | cons c rest ih =>
    obtain ⟨k, u⟩ := c
    unfold insertCell
    split
    · simp [lookupCell]
    · split
      · simp [lookupCell]
      · simp [lookupCell, *]

theorem lookup_insert_other (l : List (Nat × α)) {i j : Nat} (v : α) (h : j ≠ i) :
    lookupCell (insertCell l i v) j = lookupCell l j := by
  induction l with
  | nil => simp [insertCell, lookupCell, h.symm]
  | cons c rest ih =>
    obtain ⟨k, u⟩ := c
    unfold insertCell
    split
    · simp [lookupCell, h.symm]
    · split
      · next h1 => subst h1; simp [lookupCell, h.symm]
      · simp [lookupCell, ih]

theorem lookup_cellsFrom (k : Nat) (vs : List α) (i : Nat) :
    lookupCell (cellsFrom k vs) i = if k ≤ i then vs[i - k]? else none := by
  induction vs generalizing k with
  | nil => simp [cellsFrom, lookupCell]
  | cons v vs ih =>
    simp only [cellsFrom, lookupCell, ih]
    by_cases h1 : k = i
    · simp [h1]
    · by_cases h2 : k ≤ i
      · have h3 : k + 1 ≤ i := by omega
        obtain ⟨d, rfl⟩ := Nat.exists_eq_add_of_le h3
        have h4 : k + 1 + d - k = d + 1 := by omega
        have h5 : k + 1 + d - (k + 1) = d := by omega
        simp [h1, h2, h3, h4, h5]
      · have h3 : ¬k + 1 ≤ i := by omega
        simp [h1, h2, h3]

@[simp] theorem Memory.read_set_same (free : Nat → Nat → α) (m : Memory α) (i : Nat) (v : α) :
    (m.set i v).read free i = v := by
  simp [Memory.read, Memory.set, lookup_insert_same]

theorem Memory.read_set_other (free : Nat → Nat → α) (m : Memory α) {i j : Nat} (v : α) (h : j ≠ i) :
    (m.set i v).read free j = m.read free j := by
  simp [Memory.read, Memory.set, Memory.drawOf, lookup_insert_other _ _ h]

/-- What a fresh buffer reads as: the values it was built from, then new free values. -/
theorem Memory.read_fresh (free : Nat → Nat → α) (m : Memory α) (vs : List α) (i : Nat) :
    (m.fresh vs).read free i = (vs[i]?).getD (free (m.drawOf i + 1) i) := by
  simp [Memory.read, Memory.fresh, Memory.drawOf, lookup_cellsFrom]

theorem lookup_filter_below (l : List (Nat × α)) {n i : Nat} (h : i < n) :
    lookupCell (l.filter fun c => c.1 < n) i = lookupCell l i := by
  induction l with
  | nil => rfl
  | cons c rest ih =>
    obtain ⟨k, u⟩ := c
    by_cases hk : k < n
    · simp [hk, lookupCell, ih]
    · have hne : k ≠ i := by omega
      simp [hk, lookupCell, hne, ih]

theorem lookup_filter_above (l : List (Nat × α)) {n i : Nat} (h : n ≤ i) :
    lookupCell (l.filter fun c => c.1 < n) i = none := by
  induction l with
  | nil => rfl
  | cons c rest ih =>
    obtain ⟨k, u⟩ := c
    by_cases hk : k < n
    · have hne : k ≠ i := by omega
      simp [hk, lookupCell, hne, ih]
    · simp [hk, ih]

/-- What a memory reads as after its elements from `n` on became unspecified. -/
theorem Memory.read_forgetFrom (free : Nat → Nat → α) (m : Memory α) (n i : Nat) :
    (m.forgetFrom n).read free i = if i < n then m.read free i else free (m.drawOf i + 1) i := by
  split
  · next h =>
    have hn : ¬n ≤ i := by omega
    simp [Memory.read, Memory.forgetFrom, Memory.drawOf, lookup_filter_below _ h, hn]
  · next h =>
    have hn : n ≤ i := by omega
    simp [Memory.read, Memory.forgetFrom, Memory.drawOf, lookup_filter_above _ hn, hn]

/-- The elements that stay specified read as before. -/
theorem Memory.read_forgetFrom_below (free : Nat → Nat → α) (m : Memory α) {n i : Nat} (h : i < n) :
    (m.forgetFrom n).read free i = m.read free i := by
  rw [Memory.read_forgetFrom, if_pos h]

@[simp] theorem Memory.forgetFrom_cells (m : Memory α) (n : Nat) :
    (m.forgetFrom n).cells = m.cells.filter fun c => c.1 < n := rfl

@[simp] theorem Memory.forgetFrom_forgotten (m : Memory α) (n : Nat) : (m.forgetFrom n).forgotten = n :: m.forgotten := rfl

@[simp] theorem Memory.set_forgotten (m : Memory α) (i : Nat) (v : α) : (m.set i v).forgotten = m.forgotten := rfl

@[simp] theorem Memory.fresh_forgotten (m : Memory α) (vs : List α) : (m.fresh vs).forgotten = 0 :: m.forgotten := rfl

@[simp] theorem Memory.drawOf_set (m : Memory α) (i : Nat) (v : α) : (m.set i v).drawOf = m.drawOf := rfl

@[simp] theorem Memory.drawOf_fresh (m : Memory α) (vs : List α) (i : Nat) : (m.fresh vs).drawOf i = m.drawOf i + 1 := by
  simp [Memory.drawOf, Memory.fresh]

theorem Memory.drawOf_forgetFrom (m : Memory α) (n i : Nat) :
    (m.forgetFrom n).drawOf i = if n ≤ i then m.drawOf i + 1 else m.drawOf i := by
  split <;> simp_all [Memory.drawOf, Memory.forgetFrom]

@[simp] theorem Memory.fresh_cells (m : Memory α) (vs : List α) : (m.fresh vs).cells = cellsFrom 0 vs := rfl

@[simp] theorem Memory.set_cells (m : Memory α) (i : Nat) (v : α) : (m.set i v).cells = insertCell m.cells i v := rfl

/-- The keys after a write: those before, and the written one. -/
theorem mem_insertCell {l : List (Nat × α)} {i : Nat} {v : α} {c : Nat × α} (h : c ∈ insertCell l i v) :
    c = (i, v) ∨ c ∈ l := by
  induction l with
  | nil => simpa [insertCell] using h
  | cons d rest ih =>
    obtain ⟨k, u⟩ := d
    unfold insertCell at h
    split at h
    · simpa using h
    · split at h
      · rcases List.mem_cons.1 h with h | h
        · exact .inl h
        · exact .inr (List.mem_cons_of_mem _ h)
      · rcases List.mem_cons.1 h with h | h
        · exact .inr (h ▸ List.mem_cons_self)
        · rcases ih h with h | h
          · exact .inl h
          · exact .inr (List.mem_cons_of_mem _ h)

/-- A write keeps the canonical form. -/
theorem insertCell_sorted {l : List (Nat × α)} (i : Nat) (v : α) (h : (l.map Prod.fst).Pairwise (· < ·)) :
    ((insertCell l i v).map Prod.fst).Pairwise (· < ·) := by
  induction l with
  | nil => simp [insertCell]
  | cons c rest ih =>
    obtain ⟨k, u⟩ := c
    simp only [List.map_cons, List.pairwise_cons] at h
    obtain ⟨h1, h2⟩ := h
    unfold insertCell
    split
    · next hlt =>
      simp only [List.map_cons, List.pairwise_cons, List.mem_cons]
      refine ⟨?_, h1, h2⟩
      rintro a (rfl | ha)
      · exact hlt
      · exact lt_trans hlt (h1 a ha)
    · split
      · next heq => subst heq; simpa only [List.map_cons, List.pairwise_cons] using ⟨h1, h2⟩
      · next hn hne =>
        simp only [List.map_cons, List.pairwise_cons]
        refine ⟨?_, ih h2⟩
        intro a ha
        obtain ⟨c, hc, rfl⟩ := List.mem_map.1 ha
        rcases mem_insertCell hc with rfl | hc
        · exact lt_of_le_of_ne (not_lt.1 hn) hne
        · exact h1 _ (List.mem_map_of_mem hc)

theorem cellsFrom_keys (k : Nat) (vs : List α) : (cellsFrom k vs).map Prod.fst = List.range' k vs.length := by
  induction vs generalizing k with
  | nil => simp [cellsFrom]
  | cons v vs ih => simp [cellsFrom, ih, List.range'_succ]

/-- Every memory operation keeps the canonical form: a write of one element. -/
theorem Memory.set_wf {m : Memory α} (h : m.wf) (i : Nat) (v : α) : (m.set i v).wf := insertCell_sorted i v h

/-- Every memory operation keeps the canonical form: a fresh buffer has it, whatever was there before. -/
theorem Memory.fresh_wf (m : Memory α) (vs : List α) : (m.fresh vs).wf := by
  simp only [Memory.wf, Memory.fresh_cells, cellsFrom_keys]
  exact List.pairwise_lt_range'

/-- Every memory operation keeps the canonical form: forgetting what is written from an index on. -/
theorem Memory.forgetFrom_wf {m : Memory α} (h : m.wf) (n : Nat) : (m.forgetFrom n).wf :=
  h.sublist (List.filter_sublist.map _)

theorem Memory.forgetFrom_wfBelow {m : Memory α} {k : Nat} (h : m.WfBelow k) (n : Nat) : (m.forgetFrom n).WfBelow k :=
  ⟨Memory.forgetFrom_wf h.1 n, fun c hc => h.2 c (List.mem_of_mem_filter hc)⟩

theorem Memory.set_wfBelow {m : Memory α} {n : Nat} (h : m.WfBelow n) {i : Nat} (hi : i < n) (v : α) :
    (m.set i v).WfBelow n := by
  refine ⟨Memory.set_wf h.1 i v, fun c hc => ?_⟩
  rcases mem_insertCell hc with rfl | hc
  · exact hi
  · exact h.2 c hc

theorem Memory.fresh_wfBelow (m : Memory α) {n : Nat} {vs : List α} (h : vs.length ≤ n) : (m.fresh vs).WfBelow n := by
  refine ⟨Memory.fresh_wf m vs, fun c hc => ?_⟩
  have h1 : c.1 ∈ (cellsFrom 0 vs).map Prod.fst := List.mem_map_of_mem hc
  rw [cellsFrom_keys] at h1
  have h2 := List.mem_range'_1.1 h1
  omega

theorem Memory.set_gridWf {m : Memory Pixel} {n x y : Nat} (h : m.GridWf n) (hx : x < n) (hy : y < n) (p : Pixel) :
    (m.set (pixKey x y) p).GridWf n := by
  refine ⟨Memory.set_wf h.1 _ p, fun c hc => ?_⟩
  rcases mem_insertCell hc with rfl | hc
  · simpa [pixKey] using ⟨hx, hy⟩
  · exact h.2 c hc

/-- The five memories have the canonical form at reset. -/
theorem State.reset_memories_wf : State.reset.msg.wf ∧ State.reset.key.wf ∧ State.reset.bits.wf ∧ State.reset.out.wf ∧
    State.reset.pix.wf := by decide

/-- Two coordinate pairs have the same cell key only when they are the same pair (20_memory.md R53). -/
theorem pixKey_inj {x y x' y' : Nat} : pixKey x y = pixKey x' y' ↔ x = x' ∧ y = y' := by
  simp [pixKey, Nat.pair_eq_pair]

/-- A write marks its element written and no other. -/
theorem Memory.written_set {m : Memory α} {i j : Nat} {v : α} : (m.set i v).Written j ↔ j = i ∨ m.Written j := by
  by_cases h : j = i
  · subst h; simp [Memory.Written, lookup_insert_same]
  · simp [Memory.Written, lookup_insert_other _ _ h, h]

theorem Memory.written_fresh {m : Memory α} {vs : List α} {i : Nat} : (m.fresh vs).Written i ↔ i < vs.length := by
  simp [Memory.Written, lookup_cellsFrom]

theorem Memory.written_forgetFrom {m : Memory α} {n i : Nat} : (m.forgetFrom n).Written i ↔ i < n ∧ m.Written i := by
  by_cases h : i < n
  · simp [Memory.Written, lookup_filter_below _ h, h]
  · simp [Memory.Written, lookup_filter_above _ (not_lt.1 h), h]

/-- A written element reads alike whatever was forgotten before. -/
theorem Memory.read_of_written {m : Memory α} {i : Nat} (h : m.Written i) (free free' : Nat → Nat → α) (d : List Nat) :
    ({ m with forgotten := d } : Memory α).read free' i = m.read free i := by
  obtain ⟨v, hv⟩ := Option.isSome_iff_exists.1 h
  simp [Memory.read, hv]

/-! ### The bitstream at the end of a command -/

/-- Completing a command leaves the bitstream there. -/
theorem State.complete_readBits (s : State) {k : Nat} (h : k < s.bitLen) : s.complete.readBits k = s.readBits k :=
  Memory.read_forgetFrom_below _ _ h

/-- A command that writes neither `BITS` nor `BIT_LEN` in its body leaves the bitstream there. -/
theorem State.sameBitstream_complete {s t : State} (h : t.bits = s.bits) (hl : t.bitLen = s.bitLen) :
    s.SameBitstream t.complete := fun k hk => by
  rw [t.complete_readBits (hl ▸ hk), State.readBits_congr h]

/-- The bitstream as a sequence depends on its own elements only. -/
theorem State.bitstream_of_readBits {s t : State} (hl : t.bitLen = s.bitLen)
    (h : ∀ k, k < s.bitLen → t.readBits k = s.readBits k) : t.bitstream = s.bitstream := by
  rw [State.bitstream, State.bitstream, hl]
  exact List.map_congr_left fun k hk => h k (List.mem_range.1 hk)

end Sys2Proof.Machine
end

