-- ==== Sys2Proof/Laws/Codec.lean ====
section
/-! SUPPORT. What the scrambler, the serialiser and the terminator search do, once each (40_scrambler.md R80,
20_memory.md R42, 41_codec.md R90, R95). -/

namespace Sys2Proof.Machine

/-! ### Sequences held in memory -/

@[simp] theorem State.message_length (s : State) : s.message.length = s.msgLen := by simp [State.message]

@[simp] theorem State.bitstream_length (s : State) : s.bitstream.length = s.bitLen := by simp [State.bitstream]

theorem State.message_getElem? (s : State) {i : Nat} (h : i < s.msgLen) : s.message[i]? = some (s.readMsg i) := by
  simp [State.message, h]

theorem State.bitstream_getElem? (s : State) {k : Nat} (h : k < s.bitLen) : s.bitstream[k]? = some (s.readBits k) := by
  simp [State.bitstream, h]

/-! ### Scrambler -/

@[simp] theorem scrambleWith_length (keyAt : Nat → Byte) (bytes : List Byte) :
    (scrambleWith keyAt bytes).length = bytes.length := by simp [scrambleWith]

theorem scrambleWith_getElem? (keyAt : Nat → Byte) (bytes : List Byte) (i : Nat) :
    (scrambleWith keyAt bytes)[i]? = bytes[i]?.map (· ^^^ keyAt i) := by
  simp [scrambleWith]

/-- Scrambling twice with one key gives the bytes back. -/
theorem scrambleWith_twice (keyAt : Nat → Byte) (bytes : List Byte) :
    scrambleWith keyAt (scrambleWith keyAt bytes) = bytes := by
  apply List.ext_getElem?
  intro i
  cases h : bytes[i]? <;> simp [scrambleWith_getElem?, h]

/-! ### Serialiser -/

@[simp] theorem bitsOfByte_length (v : Byte) : (bitsOfByte v).length = 8 := rfl

theorem bitsOfByte_getElem? (v : Byte) {j : Nat} (h : j < 8) : (bitsOfByte v)[j]? = some (v.getLsbD (7 - j)) := by
  interval_cases j <;> rfl

/-- A byte's bits regrouped are the byte. -/
theorem byteOfBits_getLsbD : ∀ v : Byte,
    byteOfBits (v.getLsbD 7) (v.getLsbD 6) (v.getLsbD 5) (v.getLsbD 4) (v.getLsbD 3) (v.getLsbD 2) (v.getLsbD 1)
      (v.getLsbD 0) = v := by
  decide +kernel

theorem bitsOfBytes_cons (v : Byte) (bytes : List Byte) : bitsOfBytes (v :: bytes) = bitsOfByte v ++ bitsOfBytes bytes := by
  simp [bitsOfBytes]

theorem bitsOfBytes_append (a b : List Byte) : bitsOfBytes (a ++ b) = bitsOfBytes a ++ bitsOfBytes b := by
  simp [bitsOfBytes]

@[simp] theorem bitsOfBytes_length (bytes : List Byte) : (bitsOfBytes bytes).length = 8 * bytes.length := by
  induction bytes with
  | nil => rfl
  | cons v bytes ih => simp [bitsOfBytes_cons, ih]; omega

/-- Bit `k` of a serialised byte sequence is bit `7 − k mod 8` of byte `k div 8`. -/
theorem bitsOfBytes_getElem? (bytes : List Byte) (k : Nat) :
    (bitsOfBytes bytes)[k]? = bytes[k / 8]?.map fun v => v.getLsbD (7 - k % 8) := by
  induction bytes generalizing k with
  | nil => simp [bitsOfBytes]
  | cons v bytes ih =>
    rw [bitsOfBytes_cons]
    by_cases h : k < 8
    · have h0 : k / 8 = 0 := by omega
      have h1 : k % 8 = k := by omega
      rw [List.getElem?_append_left (by simpa using h), bitsOfByte_getElem? v h]
      simp [h0, h1]
    · rw [List.getElem?_append_right (by simp; omega), bitsOfByte_length, ih]
      have h0 : k / 8 = (k - 8) / 8 + 1 := by omega
      have h1 : (k - 8) % 8 = k % 8 := by omega
      simp [h0, h1]

theorem bytesOfBits_bits_append (v : Byte) (rest : List Bit) :
    bytesOfBits (bitsOfByte v ++ rest) = v :: bytesOfBits rest := by
  exact congrArg (· :: bytesOfBits rest) (byteOfBits_getLsbD v)

/-- Regrouping a serialised byte sequence gives the bytes back. -/
theorem bytesOfBits_bitsOfBytes (bytes : List Byte) : bytesOfBits (bitsOfBytes bytes) = bytes := by
  induction bytes with
  | nil => rfl
  | cons v bytes ih => rw [bitsOfBytes_cons, bytesOfBits_bits_append, ih]

/-- Whole bytes only: `p mod 8` trailing bits are dropped. -/
@[simp] theorem bytesOfBits_length (l : List Bit) : (bytesOfBits l).length = l.length / 8 := by
  match l with
  | b7 :: b6 :: b5 :: b4 :: b3 :: b2 :: b1 :: b0 :: rest =>
    have ih := bytesOfBits_length rest
    simp only [bytesOfBits, List.length_cons, ih]
    omega
  | [] => simp [bytesOfBits]
  | [_] => simp [bytesOfBits]
  | [_, _] => simp [bytesOfBits]
  | [_, _, _] => simp [bytesOfBits]
  | [_, _, _, _] => simp [bytesOfBits]
  | [_, _, _, _, _] => simp [bytesOfBits]
  | [_, _, _, _, _, _] => simp [bytesOfBits]
  | [_, _, _, _, _, _, _] => simp [bytesOfBits]

/-- Byte `i` of a bit sequence is made of its bits `8i .. 8i+7`. -/
theorem bytesOfBits_getElem? (l : List Bit) (i : Nat) (h : i < l.length / 8) :
    (bytesOfBits l)[i]? = some (byteOn (fun k => l[k]?.getD false) i) := by
  match l, i, h with
  | b7 :: b6 :: b5 :: b4 :: b3 :: b2 :: b1 :: b0 :: rest, 0, _ => simp [bytesOfBits, byteOn]
  | b7 :: b6 :: b5 :: b4 :: b3 :: b2 :: b1 :: b0 :: rest, i + 1, h =>
    have ih := bytesOfBits_getElem? rest i (by simp at h; omega)
    simp only [bytesOfBits, List.getElem?_cons_succ, ih]
    simp [byteOn, Nat.mul_add, Nat.add_right_comm _ 8]
  | [], _, h => simp at h
  | [_], _, h => simp at h
  | [_, _], _, h => simp at h
  | [_, _, _], _, h => simp at h
  | [_, _, _, _], _, h => simp at h
  | [_, _, _, _, _], _, h => simp at h
  | [_, _, _, _, _, _], _, h => simp at h
  | [_, _, _, _, _, _, _], _, h => simp at h

/-! ### Encoded stream -/

theorem encodeStream_length (keyAt : Nat → Byte) (message : List Byte) :
    (encodeStream keyAt message).length = 8 * (message.length + 3) := by
  simp [encodeStream, termBytes]

/-- The encoded stream is the payload followed by the terminator pattern. -/
theorem encodeStream_eq (keyAt : Nat → Byte) (message : List Byte) :
    encodeStream keyAt message = bitsOfBytes (scrambleWith keyAt message) ++ termPattern := by
  rw [encodeStream, bitsOfBytes_append]
  rfl

/-- Bit `k` of the stream ENCODE builds, read off the layout of R60. -/
theorem encodeStream_getElem? (s : State) {k : Nat} (h : k < 8 * (s.msgLen + 3)) :
    (encodeStream s.keyByte s.message)[k]? = some (s.streamBit k) := by
  rw [encodeStream_eq]
  by_cases h1 : k < 8 * s.msgLen
  · rw [List.getElem?_append_left (by simpa using h1), bitsOfBytes_getElem?, scrambleWith_getElem?,
      s.message_getElem? (by omega : k / 8 < s.msgLen)]
    simp [State.streamBit, h1, State.keyByte]
  · obtain ⟨d, rfl⟩ := Nat.exists_eq_add_of_le (not_lt.1 h1)
    rw [List.getElem?_append_right (by simp)]
    have hd : d < 24 := by omega
    have hs : s.streamBit (8 * s.msgLen + d) = decide (22 ≤ d) := by
      simp [State.streamBit]
    rw [hs]
    simp only [bitsOfBytes_length, scrambleWith_length, State.message_length, Nat.add_sub_cancel_left]
    clear hs h1 h
    revert d
    decide

/-! ### Terminator search -/

theorem termPattern_length : termPattern.length = 24 := rfl

theorem termIn_iff_prefix (l : List Bit) (q : Nat) : TermIn l q ↔ termPattern <+: l.drop q := by
  rw [TermIn, List.prefix_iff_eq_take, termPattern_length]
  constructor
  · rintro ⟨-, h⟩; exact h.symm
  · intro h
    refine ⟨?_, h.symm⟩
    have := congrArg List.length h
    simp [termPattern_length] at this
    omega

theorem termIn_succ (b : Bit) (l : List Bit) (q : Nat) : TermIn (b :: l) (q + 1) ↔ TermIn l q := by
  simp [termIn_iff_prefix]

/-- A found offset holds the pattern, and no smaller one does. -/
theorem findTerm_some {l : List Bit} {p : Nat} (h : findTerm l = some p) : TermIn l p ∧ ∀ q, q < p → ¬TermIn l q := by
  induction l generalizing p with
  | nil => simp [findTerm] at h
  | cons b rest ih =>
    unfold findTerm at h
    split at h
    · next hp =>
      obtain rfl : 0 = p := by simpa using h
      exact ⟨(termIn_iff_prefix _ _).2 (by simpa using hp), fun q hq => absurd hq (Nat.not_lt_zero q)⟩
    · next hp =>
      obtain ⟨p', hp', rfl⟩ := Option.map_eq_some_iff.1 h
      obtain ⟨h1, h2⟩ := ih hp'
      refine ⟨(termIn_succ _ _ _).2 h1, fun q hq => ?_⟩
      cases q with
      | zero => rw [termIn_iff_prefix]; simpa using hp
      | succ q => rw [termIn_succ]; exact h2 q (by omega)

/-- Nothing found: the pattern stands nowhere. -/
theorem findTerm_none {l : List Bit} (h : findTerm l = none) (q : Nat) : ¬TermIn l q := by
  induction l generalizing q with
  | nil => simp [TermIn]
  | cons b rest ih =>
    unfold findTerm at h
    split at h
    · simp at h
    · next hp =>
      cases q with
      | zero => rw [termIn_iff_prefix]; simpa using hp
      | succ q => rw [termIn_succ]; exact ih (by simpa using h) q

/-- The search finds the least offset at which the pattern stands. -/
theorem findTerm_eq_some_iff {l : List Bit} {p : Nat} :
    findTerm l = some p ↔ TermIn l p ∧ ∀ q, q < p → ¬TermIn l q := by
  refine ⟨findTerm_some, fun ⟨h1, h2⟩ => ?_⟩
  cases h : findTerm l with
  | none => exact absurd h1 (findTerm_none h p)
  | some p' =>
    obtain ⟨h3, h4⟩ := findTerm_some h
    rcases Nat.lt_trichotomy p p' with hlt | heq | hgt
    · exact absurd h1 (h4 p hlt)
    · rw [heq]
    · exact absurd h3 (h2 p' hgt)

/-- A pattern within the first part stands there whatever follows. -/
theorem termIn_append {l tail : List Bit} {q : Nat} (h : q + 24 ≤ l.length) : TermIn (l ++ tail) q ↔ TermIn l q := by
  simp only [TermIn, List.length_append, List.drop_append]
  rw [List.take_append_of_le_length (by simp; omega)]
  constructor
  · rintro ⟨-, h2⟩; exact ⟨h, h2⟩
  · rintro ⟨-, h2⟩; exact ⟨by omega, h2⟩

/-- Appended bits do not change the first occurrence (R92 d). -/
theorem findTerm_append {l : List Bit} {p : Nat} (h : findTerm l = some p) (tail : List Bit) :
    findTerm (l ++ tail) = some p := by
  obtain ⟨h1, h2⟩ := findTerm_some h
  have hp := h1.1
  exact findTerm_eq_some_iff.2
    ⟨(termIn_append hp).2 h1, fun q hq => fun h3 => h2 q hq ((termIn_append (by omega)).1 h3)⟩

/-- The pattern in a sequence given bit by bit. -/
theorem termIn_iff_termOn {l : List Bit} {bit : Nat → Bit} {n : Nat} (hl : l.length = n)
    (hb : ∀ k, k < n → l[k]? = some (bit k)) (q : Nat) : TermIn l q ↔ TermOn bit n q := by
  have key : q + 24 ≤ n → ∀ t, t < 24 → ((l.drop q).take 24)[t]? = some (bit (q + t)) := by
    intro hq t ht
    simp [ht, hb (q + t) (by omega)]
  have len : q + 24 ≤ n → ((l.drop q).take 24).length = 24 := by intro hq; simp; omega
  unfold TermIn TermOn
  rw [hl]
  constructor
  · rintro ⟨hq, h⟩
    have hk := key hq
    rw [h] at hk
    refine ⟨hq, fun t ht => ?_, ?_, ?_⟩
    · have h1 := hk t (by omega)
      have h2 : ∀ t, t < 22 → termPattern[t]? = some false := by decide
      rw [h2 t ht] at h1
      exact (Option.some.inj h1).symm
    · exact (Option.some.inj (hk 22 (by omega))).symm
    · exact (Option.some.inj (hk 23 (by omega))).symm
  · rintro ⟨hq, h0, h22, h23⟩
    refine ⟨hq, List.ext_getElem? fun t => ?_⟩
    by_cases ht : t < 24
    · rw [key hq t ht]
      rcases Nat.lt_or_ge t 22 with h | h
      · have h2 : ∀ t, t < 22 → termPattern[t]? = some false := by decide
        rw [h0 t h, h2 t h]
      · obtain rfl | rfl : t = 22 ∨ t = 23 := by omega
        · rw [h22]; rfl
        · rw [h23]; rfl
    · rw [List.getElem?_eq_none (by rw [len hq]; omega), List.getElem?_eq_none (by rw [termPattern_length]; omega)]

/-- Where a stream given bit by bit is cut, and whether the terminator was found. -/
theorem cutOn_cutIndex {l : List Bit} {bit : Nat → Bit} {n : Nat} (hl : l.length = n)
    (hb : ∀ k, k < n → l[k]? = some (bit k)) : CutOn bit n (cutIndex l) (findTerm l).isSome := by
  have hiff := termIn_iff_termOn hl hb
  cases h : findTerm l with
  | none =>
    refine .inr ⟨rfl, by simp [cutIndex, h, hl], fun q => ?_⟩
    rw [← hiff]; exact findTerm_none h q
  | some p =>
    obtain ⟨h1, h2⟩ := findTerm_some h
    refine .inl ⟨rfl, ?_, fun q hq => ?_⟩
    · simpa [cutIndex, h] using (hiff p).1 h1
    · rw [← hiff]; exact h2 q (by simpa [cutIndex, h] using hq)

/-- The cut lies within the stream. -/
theorem cutIndex_le (l : List Bit) : cutIndex l ≤ l.length := by
  cases h : findTerm l with
  | none => simp [cutIndex, h]
  | some p => have := (findTerm_some h).1.1; simp [cutIndex, h]; omega

@[simp] theorem decodeStream_length (keyAt : Nat → Byte) (l : List Bit) :
    (decodeStream keyAt l).length = cutIndex l / 8 := by
  have := cutIndex_le l
  simp [decodeStream, Nat.min_eq_left this]

/-- Recovered byte `i` of a stream given bit by bit. -/
theorem decodeStream_getElem? {keyAt : Nat → Byte} {l : List Bit} {bit : Nat → Bit}
    (hb : ∀ k, k < l.length → l[k]? = some (bit k)) {i : Nat} (hi : i < cutIndex l / 8) :
    (decodeStream keyAt l)[i]? = some (byteOn bit i ^^^ keyAt i) := by
  have hc := cutIndex_le l
  rw [decodeStream, scrambleWith_getElem?, bytesOfBits_getElem? _ _ (by simp; omega)]
  have hk : ∀ k, k < cutIndex l → ((l.take (cutIndex l))[k]?.getD false) = bit k := by
    intro k hk
    rw [List.getElem?_take_of_lt hk, hb k (by omega)]; rfl
  simp only [Option.map_some, byteOn]
  rw [hk _ (by omega), hk _ (by omega), hk _ (by omega), hk _ (by omega), hk _ (by omega), hk _ (by omega),
    hk _ (by omega), hk _ (by omega)]

end Sys2Proof.Machine
end

