-- ==== Sys2Proof/Laws/Engine.lean ====
section
/-! SUPPORT. What the pixel channel and the row-major engine do, once each (42_pixel_channel.md R110,
43_engine.md R120). -/

namespace Sys2Proof.Machine

/-! ### One pixel -/

/-- The bit read is the blue LSB. -/
theorem readBit_eq (p : Pixel) : readBit p = p.b.getLsbD 0 := by
  have h : ∀ v : Byte, ((v &&& 0x01#8) == 0x01#8) = v.getLsbD 0 := by decide +kernel
  exact h p.b

@[simp] theorem writeBit_r (p : Pixel) (b : Bit) : (writeBit p b).r = p.r := rfl

@[simp] theorem writeBit_g (p : Pixel) (b : Bit) : (writeBit p b).g = p.g := rfl

/-- Writing the blue LSB keeps the upper seven bits of blue. -/
theorem writeBit_upper (p : Pixel) (b : Bit) : (writeBit p b).b.extractLsb' 1 7 = p.b.extractLsb' 1 7 := by
  have h : ∀ (v : Byte) (b : Bit), ((v &&& 0xFE#8) ||| zextBit b).extractLsb' 1 7 = v.extractLsb' 1 7 := by
    decide +kernel
  exact h p.b b

theorem writeBit_lsb (p : Pixel) (b : Bit) : (writeBit p b).b.getLsbD 0 = b := by
  have h : ∀ (v : Byte) (b : Bit), ((v &&& 0xFE#8) ||| zextBit b).getLsbD 0 = b := by decide +kernel
  exact h p.b b

/-- The same, in the form `simp` gives a bit at a literal index. -/
@[simp] theorem writeBit_b_zero (p : Pixel) (b : Bit) : (writeBit p b).b[0] = b := writeBit_lsb p b

/-- Reading back the bit just written (42_pixel_channel.md R114). -/
@[simp] theorem readBit_writeBit (p : Pixel) (b : Bit) : readBit (writeBit p b) = b := by
  rw [readBit_eq, writeBit_lsb]

theorem writeBit_twice (p : Pixel) (a b : Bit) : writeBit (writeBit p a) b = writeBit p b := by
  have h : ∀ (v : Byte) (a b : Bit),
      ((((v &&& 0xFE#8) ||| zextBit a) &&& 0xFE#8) ||| zextBit b) = ((v &&& 0xFE#8) ||| zextBit b) := by
    decide +kernel
  simp [writeBit, h]

theorem writeBit_lsb_self (p : Pixel) : writeBit p (p.b.getLsbD 0) = p := by
  have h : ∀ v : Byte, ((v &&& 0xFE#8) ||| zextBit (v.getLsbD 0)) = v := by decide +kernel
  cases p
  simpa [writeBit] using h _

@[simp] theorem read_writePixelBit_same (m : Memory Pixel) (k : Nat) (b : Bit) :
    (writePixelBit m k b).read Config.freePix k = writeBit (m.read Config.freePix k) b := by
  simp [writePixelBit]

theorem read_writePixelBit_other (m : Memory Pixel) {k j : Nat} (b : Bit) (h : j ≠ k) :
    (writePixelBit m k b).read Config.freePix j = m.read Config.freePix j :=
  Memory.read_set_other _ _ _ h

/-- A read-modify-write of a written pixel meets no free value. -/
theorem writePixelBit_forgotten {m : Memory Pixel} {k : Nat} (h : m.Written k) (b : Bit) (d : List Nat) :
    writePixelBit { m with forgotten := d } k b = { writePixelBit m k b with forgotten := d } := by
  unfold writePixelBit
  rw [Memory.read_of_written h Config.freePix]
  rfl

/-! ### Row-major numbering -/

theorem State.pixelOfBit_eq (s : State) (k : Nat) : s.pixelOfBit k = s.pix.read Config.freePix (s.bitPixKey k) := rfl

theorem State.bitPixKey_congr {s t : State} (h : t.w = s.w) : t.bitPixKey = s.bitPixKey := by
  funext k; simp only [State.bitPixKey, h]

theorem State.pixelOfBit_congr {s t : State} (hw : t.w = s.w) (hp : t.pix = s.pix) : t.pixelOfBit = s.pixelOfBit := by
  funext k; simp only [State.pixelOfBit_eq, State.bitPixKey_congr hw, hp]

theorem State.gridBit_congr {s t : State} (hw : t.w = s.w) (hp : t.pix = s.pix) : t.gridBit = s.gridBit := by
  funext k; simp only [State.gridBit, State.pixelOfBit_congr hw hp]

/-- Different bits meet different pixels. -/
theorem State.bitPixKey_inj (s : State) {j k : Nat} : s.bitPixKey j = s.bitPixKey k ↔ j = k := by
  refine ⟨fun h => ?_, fun h => h ▸ rfl⟩
  obtain ⟨h1, h2⟩ := pixKey_inj.1 h
  rw [← Nat.div_add_mod j s.w, ← Nat.div_add_mod k s.w, h1, h2]

/-- Pixel `(x, y)` of the grid is the pixel of bit `y × W + x` (10_state.md R24). -/
theorem State.pixKey_rowMajor (s : State) {x y : Nat} (hx : x < s.w) : pixKey x y = s.bitPixKey (y * s.w + x) := by
  have hw : 0 < s.w := by omega
  have h1 : (y * s.w + x) % s.w = x := by rw [Nat.mul_add_mod_self_right, Nat.mod_eq_of_lt hx]
  have h2 : (y * s.w + x) / s.w = y := by
    rw [Nat.mul_comm, Nat.mul_add_div hw, Nat.div_eq_of_lt hx, Nat.add_zero]
  simp [State.bitPixKey, h1, h2]

/-- The pixel of bit `k < W × H` is a pixel of the grid. -/
theorem State.bitPixel_in_grid (s : State) {k : Nat} (h : k < s.w * s.h) : k % s.w < s.w ∧ k / s.w < s.h := by
  have hw : 0 < s.w := by
    rcases Nat.eq_zero_or_pos s.w with h0 | h0
    · simp [h0] at h
    · exact h0
  exact ⟨Nat.mod_lt _ hw, Nat.div_lt_of_lt_mul h⟩

/-! ### EMBED's loop -/

theorem embedFold_spec (s : State) (bit : Nat → Bit) (m : Memory Pixel) (n : Nat) :
    (∀ k, k < n → ((List.range n).foldl (fun m k => writePixelBit m (s.bitPixKey k) (bit k)) m).read Config.freePix
        (s.bitPixKey k) = writeBit (m.read Config.freePix (s.bitPixKey k)) (bit k)) ∧
    (∀ j, (∀ k, k < n → j ≠ s.bitPixKey k) →
      ((List.range n).foldl (fun m k => writePixelBit m (s.bitPixKey k) (bit k)) m).read Config.freePix j =
        m.read Config.freePix j) := by
  induction n with
  | zero => simp
  | succ n ih =>
    obtain ⟨ih1, ih2⟩ := ih
    simp only [List.range_succ, List.foldl_append, List.foldl_cons, List.foldl_nil]
    refine ⟨fun k hk => ?_, fun j hj => ?_⟩
    · by_cases h : k = n
      · subst h
        rw [read_writePixelBit_same, ih2]
        intro k' hk' he
        exact absurd (s.bitPixKey_inj.1 he) (by omega)
      · rw [read_writePixelBit_other _ _ (fun he => h (s.bitPixKey_inj.1 he)), ih1 k (by omega)]
    · rw [read_writePixelBit_other _ _ (hj n (by omega)), ih2 j (fun k hk => hj k (by omega))]

/-- EMBED puts bit `k` into the pixel of bit `k`. -/
theorem State.read_embedGrid_hit (s : State) {k : Nat} (h : k < s.embedCount) :
    s.embedGrid.read Config.freePix (s.bitPixKey k) = writeBit (s.pixelOfBit k) (s.readBits k) :=
  (embedFold_spec s s.readBits s.pix s.embedCount).1 k h

/-- After EMBED's body the pixel of bit `k` holds bit `k`. -/
theorem State.embedBody_pixelOfBit (s : State) {k : Nat} (h : k < s.embedCount) :
    s.embedBody.pixelOfBit k = writeBit (s.pixelOfBit k) (s.readBits k) := s.read_embedGrid_hit h

/-- EMBED touches no other pixel. -/
theorem State.read_embedGrid_miss (s : State) {j : Nat} (h : ∀ k, k < s.embedCount → j ≠ s.bitPixKey k) :
    s.embedGrid.read Config.freePix j = s.pix.read Config.freePix j :=
  (embedFold_spec s s.readBits s.pix s.embedCount).2 j h

/-- Everything EMBED can do to one pixel. -/
theorem State.read_embedGrid_cases (s : State) (j : Nat) :
    (∃ k, k < s.embedCount ∧ j = s.bitPixKey k ∧
      s.embedGrid.read Config.freePix j = writeBit (s.pix.read Config.freePix j) (s.readBits k)) ∨
    s.embedGrid.read Config.freePix j = s.pix.read Config.freePix j := by
  by_cases h : ∃ k, k < s.embedCount ∧ j = s.bitPixKey k
  · obtain ⟨k, hk, rfl⟩ := h
    exact .inl ⟨k, hk, rfl, s.read_embedGrid_hit hk⟩
  · exact .inr (s.read_embedGrid_miss fun k hk he => h ⟨k, hk, he⟩)

/-- A pixel outside the grid, or past the last bit written, is left alone. -/
theorem State.read_embedGrid_outside (s : State) {x y : Nat}
    (h : ¬(x < s.w ∧ y < s.h ∧ y * s.w + x < s.embedCount)) :
    s.embedGrid.read Config.freePix (pixKey x y) = s.pix.read Config.freePix (pixKey x y) := by
  refine s.read_embedGrid_miss fun k hk he => h ?_
  have hc : k < s.w * s.h := lt_of_lt_of_le hk (Nat.min_le_right _ _)
  obtain ⟨h1, h2⟩ := pixKey_inj.1 he
  obtain ⟨g1, g2⟩ := s.bitPixel_in_grid hc
  have h3 : y * s.w + x = k := by rw [h1, h2, Nat.mul_comm, Nat.div_add_mod]
  exact ⟨h1 ▸ g1, h2 ▸ g2, h3 ▸ hk⟩

/-- What EMBED makes of the grid depends on the grid, its size and the bits it writes. -/
theorem State.embedGrid_congr {s t : State} (hw : t.w = s.w) (hh : t.h = s.h) (hl : t.bitLen = s.bitLen)
    (hp : t.pix = s.pix) (hb : ∀ k, k < s.bitLen → t.readBits k = s.readBits k) : t.embedGrid = s.embedGrid := by
  have hc : t.embedCount = s.embedCount := by simp only [State.embedCount, State.gridSize, hw, hh, hl]
  unfold State.embedGrid
  rw [hc, hp, State.bitPixKey_congr hw]
  refine List.foldl_ext _ _ _ fun m k hk => ?_
  rw [hb k (lt_of_lt_of_le (List.mem_range.1 hk) (Nat.min_le_left _ _))]

/-- EMBED keeps the pixel memory canonical and within its capacity. -/
theorem State.embedGrid_gridWf (s : State) {n : Nat} (h : s.pix.GridWf n) (hw : s.w ≤ n) (hh : s.h ≤ n) :
    s.embedGrid.GridWf n := by
  have all : ∀ c, c ≤ s.w * s.h →
      ((List.range c).foldl (fun m k => writePixelBit m (s.bitPixKey k) (s.readBits k)) s.pix).GridWf n := by
    intro c hc
    induction c with
    | zero => simpa using h
    | succ c ih =>
      obtain ⟨g1, g2⟩ := s.bitPixel_in_grid (show c < s.w * s.h by omega)
      rw [List.range_succ, List.foldl_append]
      exact Memory.set_gridWf (ih (by omega)) (by omega) (by omega) _
  exact all _ (Nat.min_le_right _ _)

/-! ### EXTRACT's stream -/

@[simp] theorem State.extractStream_length (s : State) : s.extractStream.length = s.w * s.h := by
  simp [State.extractStream, State.gridSize]

theorem State.extractStream_getElem? (s : State) {k : Nat} (h : k < s.w * s.h) :
    s.extractStream[k]? = some (s.gridBit k) := by
  simp [State.extractStream, State.gridSize, h, readBit_eq, State.gridBit, State.pixelOfBit_eq]

end Sys2Proof.Machine
end

