-- ==== Sys2Proof/Laws/Commands.lean ====
section
/-! SUPPORT. What each command answers, and the inversion lemma of `exec`. -/

namespace Sys2Proof.Machine

/-! ### What the bodies leave in memory, element by element -/

/-- After ENCODE's body, bit `k` of `BITS` is bit `k` of the layout of R60. -/
theorem State.encodeBody_readBits (s : State) {k : Nat} (h : k < 8 * (s.msgLen + 3)) :
    s.encodeBody.readBits k = s.streamBit k := by
  rw [State.readBits, State.encodeBody_bits, Memory.read_fresh, encodeStream_getElem? s h]
  rfl

/-- After EXTRACT's body, bit `k` of `BITS` is the blue LSB of the pixel of bit `k`. -/
theorem State.extractBody_readBits (s : State) {k : Nat} (h : k < s.w * s.h) : s.extractBody.readBits k = s.gridBit k := by
  rw [State.readBits, State.extractBody_bits, Memory.read_fresh, s.extractStream_getElem? h]
  rfl

/-- After DECODE's body, recovered byte `i` of a stream given bit by bit. -/
theorem State.decodeBody_readOut (s : State) {bit : Nat → Bit} (hb : ∀ k, k < s.bitLen → s.readBits k = bit k) {i : Nat}
    (hi : i < cutIndex s.bitstream / 8) : s.decodeBody.readOut i = byteOn bit i ^^^ s.keyByte i := by
  rw [State.readOut, State.decodeBody_out, Memory.read_fresh, decodeStream_getElem? (bit := bit) _ hi]
  · rfl
  · intro k hk
    rw [State.bitstream_length] at hk
    rw [s.bitstream_getElem? hk, hb k hk]

/-- Where DECODE's body cuts a stream given bit by bit. -/
theorem State.decodeBody_cut (s : State) {bit : Nat → Bit} (hb : ∀ k, k < s.bitLen → s.readBits k = bit k) :
    CutOn bit s.bitLen (cutIndex s.bitstream) (findTerm s.bitstream).isSome :=
  cutOn_cutIndex s.bitstream_length fun k hk => by rw [s.bitstream_getElem? hk, hb k hk]

/-! ### What each command answers -/

theorem exec_scramble (s : State) : exec .scramble s = .next s.scrambleCommand := rfl

theorem exec_unscramble (s : State) : exec .unscramble s = .next s.scrambleCommand := rfl

theorem exec_encode (s : State) :
    exec .encode s = .next (if s.keyLen = 0 then s.setErr .emptyPassword else s.encodeBody.complete) := rfl

theorem exec_decode (s : State) :
    exec .decode s = .next (if s.keyLen = 0 then s.setErr .emptyPassword else s.decodeBody.complete) := rfl

theorem exec_wrbit (b : Bit) (s : State) : exec (.wrbit b) s =
    .next (if s.px < s.w ∧ s.py < s.h then (s.setPix (writePixelBit s.pix (pixKey s.px s.py) b)).complete
      else s.setErr .outOfRange) := by
  simp [exec, execWrbit, State.pixelInGrid]

theorem exec_rdbit (s : State) : exec .rdbit s =
    .next (if s.px < s.w ∧ s.py < s.h then
      (s.setFlags (s.flags.withRb ((s.readPix s.px s.py).b.getLsbD 0))).complete
      else s.setErr .outOfRange) := by
  simp [exec, execRdbit, State.pixelInGrid, readBit_eq]

theorem exec_embed (s : State) : exec .embed s = .next s.embedBody.complete := rfl

theorem exec_extract (s : State) : exec .extract s = .next s.extractBody.complete := rfl

theorem exec_capchk (s : State) : exec .capchk s =
    .next ((s.setFlags (s.flags.withCap (hasCapacity s.w s.msgLen))).complete) := rfl

theorem exec_hide (s : State) : exec .hide s =
    .next (if s.keyLen = 0 then s.setErr .emptyPassword
      else if hasCapacity s.w s.msgLen then s.encodeBody.embedBody.discardBits.complete
      else s.setErr .capacityExceeded) := rfl

theorem exec_showCmd (s : State) : exec .showCmd s =
    .next (if s.keyLen = 0 then s.setErr .emptyPassword
      else s.extractBody.decodeBody.discardBits.complete) := rfl

theorem scrambleCommand_eq (s : State) : s.scrambleCommand =
    if s.keyLen = 0 then s.setErr .emptyPassword else s.scrambleBody.complete := rfl

/-! ### What each command answers when its checks pass, and when one fails -/

theorem exec_scramble_ok {s : State} (h : s.keyLen ≠ 0) : exec .scramble s =
    .next s.scrambleBody.complete := by
  rw [exec_scramble, State.scrambleCommand, if_neg h]

theorem exec_unscramble_ok {s : State} (h : s.keyLen ≠ 0) : exec .unscramble s =
    .next s.scrambleBody.complete :=
  exec_scramble_ok h

theorem exec_encode_ok {s : State} (h : s.keyLen ≠ 0) : exec .encode s = .next s.encodeBody.complete := by
  rw [exec_encode, if_neg h]

theorem exec_decode_ok {s : State} (h : s.keyLen ≠ 0) : exec .decode s = .next s.decodeBody.complete := by
  rw [exec_decode, if_neg h]

theorem exec_wrbit_ok {s : State} (b : Bit) (h : s.px < s.w ∧ s.py < s.h) : exec (.wrbit b) s =
    .next ((s.setPix (writePixelBit s.pix (pixKey s.px s.py) b)).complete) := by
  rw [exec_wrbit, if_pos h]

theorem exec_wrbit_out {s : State} (b : Bit) (h : ¬(s.px < s.w ∧ s.py < s.h)) :
    exec (.wrbit b) s = .next (s.setErr .outOfRange) := by
  rw [exec_wrbit, if_neg h]

theorem exec_rdbit_ok {s : State} (h : s.px < s.w ∧ s.py < s.h) : exec .rdbit s =
    .next ((s.setFlags (s.flags.withRb ((s.readPix s.px s.py).b.getLsbD 0))).complete) := by
  rw [exec_rdbit, if_pos h]

theorem exec_rdbit_out {s : State} (h : ¬(s.px < s.w ∧ s.py < s.h)) :
    exec .rdbit s = .next (s.setErr .outOfRange) := by
  rw [exec_rdbit, if_neg h]

theorem exec_hide_ok {s : State} (h : s.keyLen ≠ 0) (hc : hasCapacity s.w s.msgLen = true) :
    exec .hide s = .next s.encodeBody.embedBody.discardBits.complete := by
  rw [exec_hide, if_neg h, if_pos hc]

theorem exec_hide_capacity {s : State} (h : s.keyLen ≠ 0) (hc : ¬hasCapacity s.w s.msgLen = true) :
    exec .hide s = .next (s.setErr .capacityExceeded) := by
  rw [exec_hide, if_neg h, if_neg hc]

theorem exec_showCmd_ok {s : State} (h : s.keyLen ≠ 0) :
    exec .showCmd s = .next s.extractBody.decodeBody.discardBits.complete := by
  rw [exec_showCmd, if_neg h]

/-- A keyed command with an empty password writes `ERR` and nothing else (60_exceptions.md R152, R155). -/
theorem exec_keyed_empty {i : Instr} {s : State}
    (hi : i ∈ [.scramble, .unscramble, .encode, .decode, .hide, .showCmd]) (h : s.keyLen = 0) :
    exec i s = .next (s.setErr .emptyPassword) := by
  simp only [List.mem_cons, List.not_mem_nil, or_false] at hi
  rcases hi with rfl | rfl | rfl | rfl | rfl | rfl
  · rw [exec_scramble, scrambleCommand_eq, if_pos h]
  · rw [exec_unscramble, scrambleCommand_eq, if_pos h]
  · rw [exec_encode, if_pos h]
  · rw [exec_decode, if_pos h]
  · rw [exec_hide, if_pos h]
  · rw [exec_showCmd, if_pos h]

/-- `hasCapacity` in numbers (44_capacity.md R130, R131). -/
theorem hasCapacity_iff {w n : Nat} : hasCapacity w n = true ↔ (n + 3) * 8 ≤ w * w := by
  simp [hasCapacity, availableBits, requiredBits]

/-- Every command answers a next state (70_reset_and_hazards.md R179). -/
theorem exec_answers (i : Instr) (s : State) : ∃ t, exec i s = .next t := by
  cases i <;> exact ⟨_, rfl⟩

/-- Everything a command can answer: one constructor per error and per effect. -/
inductive Answers (s : State) : Instr → State → Prop where
  | emptyPassword {i : Instr} (hi : i ∈ [.scramble, .unscramble, .encode, .decode, .hide, .showCmd])
      (h : s.keyLen = 0) : Answers s i (s.setErr .emptyPassword)
  | outOfRange {i : Instr} (hi : i ∈ [.wrbit false, .wrbit true, .rdbit]) (h : ¬(s.px < s.w ∧ s.py < s.h)) :
      Answers s i (s.setErr .outOfRange)
  | capacityExceeded (h : s.keyLen ≠ 0) (hc : hasCapacity s.w s.msgLen = false) :
      Answers s .hide (s.setErr .capacityExceeded)
  | scramble {i : Instr} (hi : i = .scramble ∨ i = .unscramble) (h : s.keyLen ≠ 0) :
      Answers s i s.scrambleBody.complete
  | encode (h : s.keyLen ≠ 0) : Answers s .encode s.encodeBody.complete
  | decode (h : s.keyLen ≠ 0) : Answers s .decode s.decodeBody.complete
  | wrbit (b : Bit) (h : s.px < s.w ∧ s.py < s.h) :
      Answers s (.wrbit b) ((s.setPix (writePixelBit s.pix (pixKey s.px s.py) b)).complete)
  | rdbit (h : s.px < s.w ∧ s.py < s.h) :
      Answers s .rdbit ((s.setFlags (s.flags.withRb ((s.readPix s.px s.py).b.getLsbD 0))).complete)
  | embed : Answers s .embed s.embedBody.complete
  | extract : Answers s .extract s.extractBody.complete
  | capchk : Answers s .capchk ((s.setFlags (s.flags.withCap (hasCapacity s.w s.msgLen))).complete)
  | hide (h : s.keyLen ≠ 0) (hc : hasCapacity s.w s.msgLen = true) :
      Answers s .hide s.encodeBody.embedBody.discardBits.complete
  | showCmd (h : s.keyLen ≠ 0) : Answers s .showCmd s.extractBody.decodeBody.discardBits.complete

theorem scramble_answers {i : Instr} (s : State) (hi : i = .scramble ∨ i = .unscramble) :
    Answers s i s.scrambleCommand := by
  unfold State.scrambleCommand
  split
  · next h => exact .emptyPassword (by rcases hi with rfl | rfl <;> decide) h
  · next h => exact .scramble hi h

/-- The inversion lemma of `exec`: a next state is one of the answers. -/
theorem exec_next {i : Instr} {s t : State} (h : exec i s = .next t) : Answers s i t := by
  cases i with
  | scramble => rw [exec_scramble] at h; injection h with h; subst h; exact scramble_answers s (.inl rfl)
  | unscramble => rw [exec_unscramble] at h; injection h with h; subst h; exact scramble_answers s (.inr rfl)
  | encode =>
    rw [exec_encode] at h; injection h with h; subst h
    split
    · next hk => exact .emptyPassword (by decide) hk
    · next hk => exact .encode hk
  | decode =>
    rw [exec_decode] at h; injection h with h; subst h
    split
    · next hk => exact .emptyPassword (by decide) hk
    · next hk => exact .decode hk
  | wrbit b =>
    rw [exec_wrbit] at h; injection h with h; subst h
    split
    · next hp => exact .wrbit b hp
    · next hp => exact .outOfRange (by cases b <;> decide) hp
  | rdbit =>
    rw [exec_rdbit] at h; injection h with h; subst h
    split
    · next hp => exact .rdbit hp
    · next hp => exact .outOfRange (by decide) hp
  | embed => rw [exec_embed] at h; injection h with h; subst h; exact .embed
  | extract => rw [exec_extract] at h; injection h with h; subst h; exact .extract
  | capchk => rw [exec_capchk] at h; injection h with h; subst h; exact .capchk
  | hide =>
    rw [exec_hide] at h; injection h with h; subst h
    split
    · next hk => exact .emptyPassword (by decide) hk
    · next hk =>
      split
      · next hc => exact .hide hk hc
      · next hc => exact .capacityExceeded hk (by simpa using hc)
  | showCmd =>
    rw [exec_showCmd] at h; injection h with h; subst h
    split
    · next hk => exact .emptyPassword (by decide) hk
    · next hk => exact .showCmd hk

end Sys2Proof.Machine
end

