-- ==== Sys2Proof/Laws/HostProgram.lean ====
section
/-! SUPPORT. What one event of the host can do to the list of events and to the grid's size, and how
transactions performed one after another compose. -/

namespace Sys2Proof.Machine

/-! ### The list of events is never looked at -/

/-- The next state, if there is one, changed by `f`; a stop stays. -/
def mapNext (f : State → State) : Host.Outcome State Fault Refusal → Host.Outcome State Fault Refusal
  | .next t => .next (f t)
  | .fault r => .fault r
  | .refused r => .refused r

theorem mapNext_ite (c : Prop) [Decidable c] (f : State → State) (a b : Host.Outcome State Fault Refusal) :
    mapNext f (if c then a else b) = if c then mapNext f a else mapNext f b := by split <;> rfl

/-- A command neither reads nor changes the list of events. -/
theorem exec_setHost (i : Instr) (s : State) (es : List HostEvent) :
    exec i (s.setHost es) = mapNext (State.setHost · es) (exec i s) := by
  have pull : ∀ (c : Prop) [Decidable c] (a b : State),
      (if c then a.setHost es else b.setHost es) = (if c then a else b).setHost es := by
    intro c _ a b; split <;> rfl
  cases i with
  | wrbit b => simp only [exec_wrbit, mapNext, ← pull]; rfl
  | rdbit => simp only [exec_rdbit, mapNext, ← pull]; rfl
  | encode => simp only [exec_encode, mapNext, ← pull]; rfl
  | decode => simp only [exec_decode, mapNext, ← pull]; rfl
  | hide => simp only [exec_hide, mapNext, ← pull]; rfl
  | showCmd => simp only [exec_showCmd, mapNext, ← pull]; rfl
  | scramble => simp only [exec_scramble, scrambleCommand_eq, mapNext, ← pull]; rfl
  | unscramble => simp only [exec_unscramble, scrambleCommand_eq, mapNext, ← pull]; rfl
  | embed => rfl
  | extract => rfl
  | capchk => rfl

theorem State.runCommand_setHost (s : State) (c : Byte) (es : List HostEvent) :
    (s.setHost es).runCommand c = mapNext (State.setHost · es) (s.runCommand c) := by
  unfold State.runCommand
  split
  · exact exec_setHost _ s es
  · rfl

/-- An event neither reads nor changes the list of events still to come. -/
theorem State.hostEvent_setHost (s : State) (e : HostEvent) (es : List HostEvent) :
    (s.setHost es).hostEvent e = mapNext (State.setHost · es) (s.hostEvent e) := by
  cases e with
  | reset => rfl
  | command c => exact s.runCommand_setHost c es
  | memRead e => simp only [State.hostEvent, mapNext_ite]; rfl
  | memWrite e v =>
    simp only [State.hostEvent, mapNext_ite]
    refine if_congr Iff.rfl ?_ rfl
    cases e <;> cases v <;> simp only [State.writeElement, mapNext_ite] <;> rfl
  | regRead n =>
    have h : (s.setHost es).readReg n = s.readReg n := rfl
    simp only [State.hostEvent, h]
    split <;> rfl
  | regWrite n v =>
    simp only [State.hostEvent]
    unfold State.writeReg
    split
    · rw [mapNext_ite]; exact if_congr Iff.rfl (s.runCommand_setHost _ es) rfl
    all_goals first | rfl | (simp only [writeFitting, mapNext_ite]; rfl)

/-! ### The grid's size -/

/-- No command changes `W` or `H` (10_state.md R12). -/
theorem exec_grid {i : Instr} {s t : State} (h : exec i s = .next t) : t.w = s.w ∧ t.h = s.h := by
  cases exec_next h <;> exact ⟨rfl, rfl⟩

theorem State.runCommand_grid {s t : State} {c : Byte} (h : s.runCommand c = .next t) : t.w = s.w ∧ t.h = s.h := by
  unfold State.runCommand at h
  split at h
  · exact exec_grid h
  · cases h; exact ⟨rfl, rfl⟩

/-- `gridAfter` says what an event leaves in `W` and `H`. -/
theorem State.hostEvent_grid {s t : State} {e : HostEvent} (h : s.hostEvent e = .next t) :
    (t.w, t.h) = e.gridAfter (s.w, s.h) := by
  cases e with
  | reset => cases h; rfl
  | command c => exact Prod.ext (State.runCommand_grid h).1 (State.runCommand_grid h).2
  | memRead e => simp only [State.hostEvent] at h; split at h <;> cases h; rfl
  | memWrite e v =>
    simp only [State.hostEvent] at h
    split at h
    · cases e <;> cases v <;> simp only [State.writeElement] at h <;> (try split at h) <;> cases h <;> rfl
    · cases h
  | regRead n => simp only [State.hostEvent] at h; split at h <;> cases h; rfl
  | regWrite n v =>
    simp only [State.hostEvent] at h
    unfold State.writeReg at h
    split at h
    · split at h
      · exact Prod.ext (State.runCommand_grid h).1 (State.runCommand_grid h).2
      · cases h
    all_goals (try unfold writeFitting at h); (try split at h) <;> first | (cases h; rfl) | cases h

/-! ### Transactions one after another -/

theorem performAll_append (es fs : List HostEvent) (s : State) :
    performAll (es ++ fs) s =
      match performAll es s with
      | .next t => performAll fs t
      | .fault f => .fault f
      | .refused r => .refused r := by
  induction es generalizing s with
  | nil => rfl
  | cons e es ih =>
    simp only [List.cons_append, performAll]
    cases s.hostEvent e with
    | next t => exact ih t
    | fault f => rfl
    | refused r => rfl

/-- `W` and `H` after transactions that were all performed. -/
theorem performAll_grid {es : List HostEvent} {s t : State} (h : performAll es s = .next t) :
    (t.w, t.h) = es.foldl (fun d e => e.gridAfter d) (s.w, s.h) := by
  induction es generalizing s with
  | nil => cases h; rfl
  | cons e es ih =>
    simp only [performAll] at h
    split at h
    · next u hu => rw [ih h, List.foldl_cons, State.hostEvent_grid hu]
    · cases h
    · cases h

end Sys2Proof.Machine
end

