-- ==== Sys2Proof/Laws/PerInstr.lean ====
section
/-! SUPPORT. Statements made per instruction. -/

namespace Sys2Proof.Laws.EncodeFormat

/-- The command word of an instruction has the format 30_encoding.md R66 gives it: bits 7:5 zero, bit 4 the
operand of format B (zero in format N), bits 3:0 the opcode of R67, 1 to 10. -/
def Statement (i : Instr) : Prop :=
  (encode i).extractLsb' 0 4 = i.opcode ∧ (encode i).getLsbD 4 = i.operand ∧ (encode i).extractLsb' 5 3 = 0#3 ∧
    1 ≤ i.opcode.toNat ∧ i.opcode.toNat ≤ 10

theorem scramble : Statement .scramble := by unfold Statement; decide
theorem unscramble : Statement .unscramble := by unfold Statement; decide
theorem encode : Statement .encode := by unfold Statement; decide
theorem decode : Statement .decode := by unfold Statement; decide
theorem wrbit (b : Bit) : Statement (.wrbit b) := by unfold Statement; cases b <;> decide
theorem rdbit : Statement .rdbit := by unfold Statement; decide
theorem embed : Statement .embed := by unfold Statement; decide
theorem extract : Statement .extract := by unfold Statement; decide
theorem capchk : Statement .capchk := by unfold Statement; decide
theorem hide : Statement .hide := by unfold Statement; decide
theorem showCmd : Statement .showCmd := by unfold Statement; decide

end Sys2Proof.Laws.EncodeFormat
end

