-- ==== Sys2Proof/Tests/Slice0.lean ====
section
/-! SUPPORT. Tests. Expected values are the vectors of 95_test_vectors.md (V-…) or words written out from
30_encoding.md R66 and R67. The second half shows that no statement's hypotheses are empty. -/

namespace Sys2Proof.Tests

open Sys2Proof.Machine

/-! ### Small states -/

/-- A buffer that holds `vs` from element 0 on. -/
def buffer {α : Type} (vs : List α) : Memory α := { cells := cellsFrom 0 vs, forgotten := [] }

/-- A grid with the given pixels, `(x, y, R, G, B)`. -/
def grid (ps : List (Nat × Nat × Pixel)) : Memory Pixel :=
  ps.foldl (fun m p => m.set (pixKey p.1 p.2.1) p.2.2) { cells := [], forgotten := [] }

/-- A `w × h` grid of one pixel value. -/
def plain (w h : Nat) (p : Pixel) : Memory Pixel :=
  grid ((List.range h).flatMap fun y => (List.range w).map fun x => (x, y, p))

/-- A message, a password and a grid, loaded by the host after reset. -/
def bench (message password : List Byte) (w h : Nat) (pix : Memory Pixel) : State :=
  { State.reset with
    msg := buffer message
    msgLen := message.length
    key := buffer password
    keyLen := password.length
    w := w
    h := h
    pix := pix }

/-- A bitstream and a password, loaded by the host after reset. -/
def streamBench (bits : List Bit) (password : List Byte) : State :=
  { State.reset with
    bits := buffer bits
    bitLen := bits.length
    key := buffer password
    keyLen := password.length }

/-- The step ends in a next state with the property `p`. -/
def ends (o : Host.Outcome State Fault Refusal) (p : State → Bool) : Bool :=
  match o with
  | .next t => p t
  | .fault _ => false
  | .refused _ => false

/-- A string of binary digits as bits. -/
def bitsOf (n : Nat) : List Nat → List Bit
  | [] => []
  | v :: vs => (List.range n).map (fun j => v.testBit (n - 1 - j)) ++ bitsOf n vs

/-! ### Well-formedness -/

/-- The one ill-formed term, the alias, is refused; what the decoder yields is accepted. -/
theorem test_wellFormed : WellFormed .unscramble = false ∧ WellFormed .scramble = true ∧
    WellFormed (.wrbit true) = true ∧ WellFormed .showCmd = true := by decide

/-! ### Decoding, one word of each command written bit by bit (R66, R67) -/

theorem test_decode_scramble : decode 0b00000001#8 = .ok .scramble := by decide
theorem test_decode_encode : decode 0b00000010#8 = .ok .encode := by decide
theorem test_decode_decode : decode 0b00000011#8 = .ok .decode := by decide
theorem test_decode_wrbit0 : decode 0b00000100#8 = .ok (.wrbit false) := by decide
theorem test_decode_wrbit1 : decode 0b00010100#8 = .ok (.wrbit true) := by decide
theorem test_decode_rdbit : decode 0b00000101#8 = .ok .rdbit := by decide
theorem test_decode_embed : decode 0b00000110#8 = .ok .embed := by decide
theorem test_decode_extract : decode 0b00000111#8 = .ok .extract := by decide
theorem test_decode_capchk : decode 0b00001000#8 = .ok .capchk := by decide
theorem test_decode_hide : decode 0b00001001#8 = .ok .hide := by decide
theorem test_decode_show : decode 0b00001010#8 = .ok .showCmd := by decide

/-- UNSCRAMBLE assembles to SCRAMBLE's word, which decodes to SCRAMBLE (R72, R83). -/
theorem test_encode_unscramble : encode .unscramble = 0b00000001#8 ∧ decode (encode .unscramble) = .ok .scramble := by
  decide

/-- V-X6 to V-X10: reserved words, refused by name. -/
theorem test_decode_reserved :
    (∀ c ∈ [0x00#8, 0x0B#8, 0x0C#8, 0x0D#8, 0x0E#8, 0x0F#8, 0xFF#8, 0x10#8], decode c = .error .opcode) ∧
    ∀ c ∈ [0x11#8, 0x15#8, 0x1A#8, 0x24#8, 0x44#8, 0x84#8, 0x34#8, 0x81#8], decode c = .error .bitsSet := by decide

/-- The table's numbering of the row is the command word itself. -/
theorem test_decodeTableWord : decodeTableWord 8 0x14 = some (.wrbit true) ∧ decodeTableWord 8 0x00 = none := by decide

/-! ### Commands -/

/-- V-S1. -/
theorem test_scramble_repeats_key :
    ends (exec .scramble (bench [0x41#8, 0x42#8, 0x43#8, 0x44#8, 0x45#8] [0x01#8, 0x02#8] 0 0 (plain 0 0 ⟨0, 0, 0⟩)))
      (fun t => t.out.cells == cellsFrom 0 [0x40#8, 0x40#8, 0x42#8, 0x46#8, 0x44#8] && t.outLen == 5 &&
        t.err == .noError) = true := by decide

/-- V-S8: the empty password leaves the old `OUT_LEN`. -/
theorem test_scramble_empty_password :
    ends (exec .scramble { bench [0x41#8] [] 0 0 (plain 0 0 ⟨0, 0, 0⟩) with outLen := 9 })
      (fun t => t.outLen == 9 && t.err.code == 4) = true := by decide

/-- V-S4, the way back. -/
theorem test_unscramble_back :
    ends (exec .unscramble (bench [0xD1#8, 0x5D#8, 0x14#8, 0xE0#8, 0xF1#8] [0x0F#8, 0xF0#8, 0xAA#8] 0 0
        (plain 0 0 ⟨0, 0, 0⟩)))
      (fun t => t.out.cells == cellsFrom 0 [0xDE#8, 0xAD#8, 0xBE#8, 0xEF#8, 0x01#8]) = true := by decide

/-- V-C3: "Hi" under "k". -/
theorem test_encode_scenario :
    ends (exec .encode (bench [0x48#8, 0x69#8] [0x6B#8] 0 0 (plain 0 0 ⟨0, 0, 0⟩)))
      (fun t => t.bits.cells == cellsFrom 0 (bitsOf 8 [0b00100011, 0b00000010, 0b00000000, 0b00000000, 0b00000011]) &&
        t.bitLen == 40 && t.pos == 40 && t.err == .noError) = true := by decide +kernel

/-- V-C8: a two-byte key, and the terminator does not advance it. -/
theorem test_encode_two_byte_key :
    ends (exec .encode (bench [0x80#8, 0x01#8] [0x01#8, 0x80#8] 0 0 (plain 0 0 ⟨0, 0, 0⟩)))
      (fun t => t.bits.cells == cellsFrom 0 (bitsOf 8 [0b10000001, 0b10000001, 0b00000000, 0b00000000, 0b00000011])) =
      true := by decide +kernel

/-- V-D10: 30 zeros then `11`; the match is where exactly 22 zeros remain. -/
theorem test_decode_long_zero_run :
    ends (exec .decode (streamBench (bitsOf 8 [0, 0, 0, 0b00000011]) [0x20#8]))
      (fun t => t.out.cells == [(0, 0x20#8)] && t.outLen == 1 && t.pos == 8 && t.flags.tf && t.bitLen == 32) = true := by
  decide +kernel

/-- V-D11: 21 zeros then `1` is no match, the later pattern is; six trailing bits are dropped. -/
theorem test_decode_unaligned :
    ends (exec .decode (streamBench (bitsOf 8 [0b10101010] ++ List.replicate 21 false ++ [true] ++
        List.replicate 22 false ++ [true, true, false]) [0x20#8]))
      (fun t => t.out.cells == cellsFrom 0 [0x8A#8, 0x20#8, 0x20#8] && t.outLen == 3 && t.pos == 30 && t.flags.tf) =
      true := by decide +kernel

/-- V-P1. -/
theorem test_wrbit_clears :
    ends (exec (.wrbit false) { bench [] [] 3 2 (grid [(2, 1, ⟨0x10, 0x20, 0x37⟩)]) with px := 2, py := 1 })
      (fun t => t.pix == grid [(2, 1, ⟨0x10, 0x20, 0x36⟩)] && t.err == .noError) = true := by decide

/-- V-P10. -/
theorem test_wrbit_out_of_range :
    ends (exec (.wrbit true) { bench [] [] 3 2 (grid [(0, 0, ⟨1, 2, 4⟩)]) with px := 3 })
      (fun t => t.pix == grid [(0, 0, ⟨1, 2, 4⟩)] && t.err.code == 6) = true := by decide

/-- V-P8. -/
theorem test_rdbit_one :
    ends (exec .rdbit (bench [] [] 3 2 (grid [(0, 0, ⟨0, 0, 1⟩)]))) (fun t => t.flags.toNat == 4 && t.err == .noError) =
      true := by decide

/-- V-P11: `RB` keeps its value. -/
theorem test_rdbit_out_of_range :
    ends (exec .rdbit { bench [] [] 3 2 (grid []) with py := 2, flags := ⟨false, false, true⟩ })
      (fun t => t.flags.rb && t.err.code == 6) = true := by decide

/-- V-E9: `x` runs fastest. -/
theorem test_embed_row_major :
    ends (exec .embed { streamBench [true, true, true, false, false, false] [] with w := 2, h := 3, pix := plain 2 3 ⟨0, 0, 0⟩ })
      (fun t => t.pix == grid [(0, 0, ⟨0, 0, 1⟩), (1, 0, ⟨0, 0, 1⟩), (0, 1, ⟨0, 0, 1⟩), (1, 1, ⟨0, 0, 0⟩),
        (0, 2, ⟨0, 0, 0⟩), (1, 2, ⟨0, 0, 0⟩)] && t.pos == 6) = true := by decide +kernel

/-- V-E5: the grid ends before the bitstream. -/
theorem test_embed_grid_exhausted :
    ends (exec .embed { streamBench [false, true, true, true, false] [] with
        w := 2, h := 1, pix := grid [(0, 0, ⟨1, 2, 0xFF⟩), (1, 0, ⟨3, 4, 0xFE⟩)] })
      (fun t => t.pix == grid [(0, 0, ⟨1, 2, 0xFE⟩), (1, 0, ⟨3, 4, 0xFF⟩)] && t.pos == 2 && t.bitLen == 5 &&
        t.err == .noError) = true := by decide +kernel

/-- V-E3. -/
theorem test_extract :
    ends (exec .extract (bench [] [] 2 2 (grid [(0, 0, ⟨0, 0, 0x01⟩), (1, 0, ⟨0, 0, 0x02⟩), (0, 1, ⟨0, 0, 0xFF⟩),
        (1, 1, ⟨0, 0, 0x00⟩)])))
      (fun t => t.bits.cells == cellsFrom 0 [true, false, true, false] && t.bitLen == 4 && t.pos == 4) = true := by
  decide +kernel

/-- V-K8: the height is not used. -/
theorem test_capchk_ignores_height :
    ends (exec .capchk { State.reset with w := 7, h := 1, msgLen := 2 }) (fun t => t.flags.toNat == 1) = true := by decide

/-- V-K14: no wrap. -/
theorem test_capchk_no_wrap :
    ends (exec .capchk { State.reset with w := 65535, h := 1, msgLen := 4294967295, flags := ⟨true, true, false⟩ })
      (fun t => t.flags.toNat == 2) = true := by decide +kernel

/-- R22, U6: a command that does not build `BITS` keeps the bitstream the host wrote, and what the host wrote past
`BIT_LEN` is no longer there; a command that fails has changed `ERR` only (R155). -/
theorem test_tail_forgotten :
    ends (exec .capchk { streamBench (bitsOf 4 [0b1011]) [] with bitLen := 2 }) (fun t =>
      t.err == .noError && t.bits.cells == cellsFrom 0 (bitsOf 2 [0b10])) = true ∧
    ends (exec .decode { streamBench (bitsOf 4 [0b1011]) [] with bitLen := 2 }) (fun t =>
      t.err == .emptyPassword && t.bits.cells == cellsFrom 0 (bitsOf 4 [0b1011])) = true := by decide +kernel

/-- V-H12: the check passes on 7 × 7 although only 7 pixels exist. -/
theorem test_hide_truncates :
    ends (exec .hide (bench [0x48#8, 0x69#8] [0x6B#8] 7 1 (plain 7 1 ⟨1, 2, 0xFF⟩)))
      (fun t => t.pix == grid [(0, 0, ⟨1, 2, 0xFE⟩), (1, 0, ⟨1, 2, 0xFE⟩), (2, 0, ⟨1, 2, 0xFF⟩), (3, 0, ⟨1, 2, 0xFE⟩),
        (4, 0, ⟨1, 2, 0xFE⟩), (5, 0, ⟨1, 2, 0xFE⟩), (6, 0, ⟨1, 2, 0xFF⟩)] && t.pos == 7 && t.bitLen == 0 &&
        t.err == .noError) = true := by decide +kernel

/-- V-X1, V-H14: refused although 42 pixels would do; nothing is written. -/
theorem test_hide_refuses :
    ends (exec .hide (bench [0x48#8, 0x69#8] [0x6B#8] 6 7 (grid [])))
      (fun t => t == (bench [0x48#8, 0x69#8] [0x6B#8] 6 7 (grid [])).setErr .capacityExceeded) = true := by decide

/-- V-H2: "Hi" back from the 7 × 7 grid whose blue LSBs the example of R141 lists. -/
theorem test_show_scenario :
    ends (exec .showCmd (bench [] [0x6B#8] 7 7
        ((grid [(2, 0, ⟨0, 0, 1⟩), (6, 0, ⟨0, 0, 1⟩), (0, 1, ⟨0, 0, 1⟩), (0, 2, ⟨0, 0, 1⟩), (3, 5, ⟨0, 0, 1⟩),
          (4, 5, ⟨0, 0, 1⟩)]).cells.foldl (fun m c => m.set c.1 c.2) (plain 7 7 ⟨0, 0, 0⟩))))
      (fun t => t.out.cells == cellsFrom 0 [0x48#8, 0x69#8] && t.outLen == 2 && t.pos == 16 && t.flags.tf &&
        t.bitLen == 0) = true := by decide +kernel

/-- V-H8: no terminator. -/
theorem test_show_no_terminator :
    ends (exec .showCmd (bench [] [0x6B#8] 4 4 (plain 4 4 ⟨5, 5, 5⟩)))
      (fun t => t.out.cells == cellsFrom 0 [0x94#8, 0x94#8] && t.outLen == 2 && t.pos == 16 && !t.flags.tf &&
        t.err == .noError) = true := by decide +kernel

/-! ### Stepping and the host interface -/

/-- V-X8: a reserved word issued as the next event raises IllegalCommand. -/
theorem test_step_reserved_word :
    ends (step { State.reset with host := [.command 0x15#8] }) (fun t => t == State.reset.setErr .illegalCommand) = true := by
  decide

/-- The command word placed by `withFetchWord` is what the next step runs (V-K12: `CAP` is 0, `ERR` is 0). -/
theorem test_step_fetchWord :
    ends (step (State.withFetchWord { State.reset with h := 9, err := .outOfRange, flags := ⟨true, false, false⟩ } 8 0x08))
      (fun t => t.err.code == 0 && t.flags.toNat == 0 && t.host == []) = true := by decide

/-- R52: `RegWrite` then `RegRead` of `MSG_LEN`. -/
theorem test_step_regRead :
    ends (step { State.reset with msgLen := 5, host := [.regRead 5] }) (fun t => t.reply == some (.num 5)) = true := by decide

/-- R71 `fill`, R24: a 2 × 1 grid takes two pixel writes. -/
theorem test_fill : (HostLine.fill 9 9 16).events 2 1 =
    [.memWrite (.pix 0 0) (.rgb 9 9 16), .memWrite (.pix 1 0) (.rgb 9 9 16)] := by decide

/-- R71: `load OUT, 3, [7, 8]` and `WRBIT 1`. -/
theorem test_lines : (HostLine.load (.out 3) [.num 7, .num 8]).events 0 0 =
      [.memWrite (.out 3) (.num 7), .memWrite (.out 4) (.num 8)] ∧
    (HostLine.command (.wrbit true)).events 0 0 = [.command 0x14#8] := by decide

/-- P1, lines 1 to 3, issued in turn from reset: `fill` finds the 7 × 7 grid the lines before it set. -/
theorem test_issue_in_turn :
    ((State.reset.issueProgram [.set .w 7, .set .h 7, .fill 0 0 0]).host.length = 2 + 49) ∧
    (State.reset.issueProgram [.set .w 7, .set .h 7, .fill 0 0 0]).host.getLast? =
      some (.memWrite (.pix 6 6) (.rgb 0 0 0)) := by decide +kernel

/-- P1, lines 5 and 4: the lines of a program, one after another (R71), with "Hi" as its bytes. -/
theorem test_runProgram :
    ends (runProgram [.set .msgLen 2, .load (.msg 0) (quoted ['H', 'i'])] State.reset)
      (fun t => t.msgLen == 2 && t.msg.cells == [(0, 0x48#8), (1, 0x69#8)]) = true := by decide

/-- R44: the packed view. -/
theorem test_packed : (Pixel.packed ⟨0x12, 0x34, 0x56⟩) = 0x123456#24 := by decide

/-! ### Witnesses: the hypotheses of the statements are met, at the edges of their ranges -/

/-- "Hi" under "k" in a 7 × 7 grid of black pixels, with an 8-bit stream in `BITS`. -/
def full : State :=
  { bench [0x48#8, 0x69#8] [0x6B#8] 7 7 (plain 7 7 ⟨0, 0, 0⟩) with
    bits := buffer (bitsOf 8 [0b01000001])
    bitLen := 8 }

theorem witness_DecoderFollowsOpcodeMap :
    ((0x14#8).extractLsb' 0 4 = 4#4 ∧ (0x14#8).extractLsb' 5 3 = 0#3) ∧
    ((0x01#8).extractLsb' 4 4 = 0#4 ∧ (0x01#8).extractLsb' 0 4 = 1#4) ∧ (0x02#8).extractLsb' 0 4 = 2#4 ∧
    (0x03#8).extractLsb' 0 4 = 3#4 ∧ (0x05#8).extractLsb' 0 4 = 5#4 ∧ (0x06#8).extractLsb' 0 4 = 6#4 ∧
    (0x07#8).extractLsb' 0 4 = 7#4 ∧ (0x08#8).extractLsb' 0 4 = 8#4 ∧ (0x09#8).extractLsb' 0 4 = 9#4 ∧
    ((0x0A#8).extractLsb' 4 4 = 0#4 ∧ (0x0A#8).extractLsb' 0 4 = 10#4) := by decide

theorem witness_DecodeEncodeAgree : WellFormed (.wrbit true) = true ∧ decode 0x14#8 = .ok (.wrbit true) := by decide

/-- One word per clause of R69 (V-X6 to V-X10), at the edges of each. -/
theorem witness_ReservedWordRaisesIllegalCommand :
    (0x00#8).extractLsb' 0 4 = 0#4 ∧ (0x0B#8).extractLsb' 0 4 ≥ 11#4 ∧ (0x0F#8).extractLsb' 0 4 ≥ 11#4 ∧
    ((0x1A#8).extractLsb' 0 4 ≠ 4#4 ∧ (0x1A#8).extractLsb' 4 4 ≠ 0#4) ∧
    ((0x24#8).extractLsb' 0 4 = 4#4 ∧ (0x24#8).extractLsb' 5 3 ≠ 0#3) ∧
    (State.reset.setHost [.command 0x24#8]).host = [.command 0x24#8] := by decide

theorem witness_StepRunsDecodedCommand :
    (State.reset.setHost [.command 0x14#8]).host = .command 0x14#8 :: [] ∧ decode 0x14#8 = .ok (.wrbit true) := by decide

theorem witness_WriteOfCmdIsCommand : 255 < 256 := by decide

theorem witness_IdleWithoutEvent : State.reset.host = [] := rfl

theorem witness_ResetEventClearsBlock : (full.setHost [.reset]).host = .reset :: [] := rfl

theorem witness_StepKeepsInvariant : (full.setHost [.command 0x08#8]).Inv ∧
    step (full.setHost [.command 0x08#8]) = .next ((full.setFlags ⟨true, false, false⟩).complete) :=
  ⟨by decide +kernel, rfl⟩

theorem witness_FailingCommandWritesOnlyErr :
    State.reset.runCommand 0x01#8 = .next (State.reset.setErr .emptyPassword) ∧
      (State.reset.setErr .emptyPassword).err ≠ .noError := ⟨rfl, by decide⟩

theorem witness_ErrorMatrix : ∀ i, decode 0x0B#8 ≠ .ok i := by
  intro i h
  have h1 : (decode 0x0B#8).toOption = some i := congrArg Except.toOption h
  rw [show (decode 0x0B#8).toOption = none by decide] at h1
  cases h1

theorem witness_EmptyPasswordRejected :
    (.showCmd ∈ [Instr.scramble, .unscramble, .encode, .decode, .hide, .showCmd] ∧ State.reset.keyLen = 0) ∧
    .capchk ∈ [Instr.wrbit false, .wrbit true, .rdbit, .embed, .extract, .capchk] ∧
    exec .capchk State.reset = .next ((State.reset.setFlags ⟨false, false, false⟩).complete) :=
  ⟨by decide, by decide, rfl⟩

/-- The first coordinate past each edge. -/
theorem witness_OutOfRangeRejected : .wrbit true ∈ [Instr.wrbit false, .wrbit true, .rdbit] ∧
    ({ full with px := 7 } : State).px ≥ full.w ∧ ({ full with py := 7 } : State).py ≥ full.h := by decide

/-- CAPCHK, RDBIT and DECODE each change their flag. -/
theorem witness_FlagWriters :
    ends (exec .capchk full) (fun t => t.flags.cap != full.flags.cap) = true ∧
    ends (exec .decode { full with bits := buffer termPattern, bitLen := 24 }) (fun t => t.flags.tf != full.flags.tf) = true ∧
    ends (exec .rdbit { full with pix := plain 7 7 ⟨0, 0, 1⟩ }) (fun t => t.flags.rb != full.flags.rb) = true := by
  decide +kernel

/-- Each register and each memory is changed by some command. -/
theorem witness_ResultWriters :
    ends (exec .encode full) (fun t => t.bitLen != full.bitLen && t.pos != full.pos &&
      t.readBits 1 != full.readBits 1) = true ∧ 1 < full.bitLen ∧
    ends (exec .scramble full) (fun t => t.outLen != full.outLen && t.out != full.out) = true ∧
    ends (exec (.wrbit true) full) (fun t => t.pix != full.pix) = true := by decide +kernel

/-- Both clauses: a command that completes, with elements past both lengths. -/
theorem witness_TailsUnspecified :
    ends (exec .capchk full) (fun t => t.err == .noError && t.bitLen == 8) = true ∧
    .decode ∈ [Instr.scramble, .unscramble, .decode, .showCmd] ∧
    ends (exec .decode full) (fun t => t.err == .noError && t.outLen == 1) = true := by decide +kernel

theorem witness_CommandsKeepInputs : exec .embed State.reset = .next State.reset.embedBody.complete := rfl

theorem witness_OnlyBlueLsbChanges : ends (exec (.wrbit true) full) (fun t => t.readPix 0 0 != full.readPix 0 0) = true := by
  decide +kernel

theorem witness_PixelsOutsideGridKept : exec .embed full = .next full.embedBody.complete ∧ 7 ≥ full.w ∧ 7 ≥ full.h :=
  ⟨rfl, by decide, by decide⟩

/-- A grid that differs in `R`, `G` and `B[7:1]` of one pixel and has the same blue LSBs. -/
theorem witness_OnlyBlueLsbRead : .rdbit ∈ [Instr.rdbit, .extract, .showCmd] ∧
    ∀ x y, ((full.setPix (full.pix.set (pixKey 0 0) ⟨1, 2, 0x80⟩)).readPix x y).b.getLsbD 0 = (full.readPix x y).b.getLsbD 0 := by
  refine ⟨by decide, fun x y => ?_⟩
  simp only [State.readPix, State.setPix_pix]
  by_cases h : pixKey x y = pixKey 0 0
  · rw [h, Memory.read_set_same]
    decide +kernel
  · rw [Memory.read_set_other _ _ _ h]

theorem witness_WrittenInputsHideFreeValues :
    full.InputsWritten .scramble ∧ full.InputsWritten .unscramble ∧ full.InputsWritten .encode ∧
    full.InputsWritten .decode ∧ full.InputsWritten (.wrbit true) ∧ full.InputsWritten .rdbit ∧
    full.InputsWritten .embed ∧ full.InputsWritten .extract ∧ full.InputsWritten .capchk ∧ full.InputsWritten .hide ∧
    full.InputsWritten .showCmd := by
  unfold State.InputsWritten
  decide +kernel

/-- Both clauses, and the last message byte. -/
theorem witness_ScrambleFillsOut : State.reset.keyLen = 0 ∧ full.keyLen ≠ 0 ∧ 1 < full.msgLen := by decide

theorem witness_ScrambleInvolution : full.keyLen ≠ 0 ∧
    ∀ k, k < full.scrambleBody.complete.outLen →
      (full.scrambleBody.complete.setMsg (buffer [0x23#8, 0x02#8])).readMsg k =
        full.scrambleBody.complete.readOut k := by decide +kernel

theorem witness_BitOrderMsbFirst : [0x23#8][0]? = some 0x23#8 ∧ 7 < 8 ∧
    8 * 0 + 8 ≤ (bitsOf 8 [0x23]).length := by decide

/-- The last message bit and the last terminator bit. -/
theorem witness_EncodeBuildsStream : State.reset.keyLen = 0 ∧ full.keyLen ≠ 0 ∧ 1 < full.msgLen ∧ 2 < 3 ∧ 7 < 8 := by decide

/-- V-C6: an unaligned occurrence inside the payload. -/
theorem witness_EncodedStreamFacts : 1 < 8 * 4 ∧
    TermIn (encodeStream (fun _ => 0x6B#8) [0x6B#8, 0x6B#8, 0x6A#8, 0xEB#8]) 1 := by
  unfold TermIn
  decide +kernel

/-- With a terminator (V-D6) a byte comes out; without one (V-D8) two do. -/
theorem witness_DecodeCutsAndUnscrambles : State.reset.keyLen = 0 ∧
    (streamBench (bitsOf 8 [0b01000001, 0, 0, 0b00000011]) [0x20#8]).keyLen ≠ 0 ∧
    cutIndex (bitsOf 8 [0b01000001, 0, 0, 0b00000011]) = 8 ∧ cutIndex (bitsOf 8 [0xFF, 0xFF]) = 16 := by decide +kernel

/-- V-C3. -/
theorem witness_CodecRoundTrip :
    findTerm (encodeStream (fun _ => 0x6B#8) [0x48#8, 0x69#8]) = some (8 * [0x48#8, 0x69#8].length) := by decide +kernel

/-- Past each edge, and the last pixel of the grid. -/
theorem witness_WrbitWritesOneBlueBit : ({ full with px := 7 } : State).px ≥ full.w ∧
    ({ full with py := 7 } : State).py ≥ full.h ∧ ({ full with px := 6, py := 6 } : State).px < full.w ∧
    ({ full with px := 6, py := 6 } : State).py < full.h := by decide

theorem witness_RdbitReadsBlueLsb : ({ full with px := 7 } : State).px ≥ full.w ∧
    ({ full with px := 6, py := 6 } : State).px < full.w ∧ ({ full with px := 6, py := 6 } : State).py < full.h := by decide

theorem witness_RdbitAfterWrbit : full.px < full.w ∧ full.py < full.h := by decide

/-- The last pixel written and the first one not written. -/
theorem witness_EmbedWritesRowMajor : full.embedBody.pos = 8 ∧ 7 < full.embedBody.pos ∧
    ¬(1 < full.w ∧ 1 < full.h ∧ 1 * full.w + 1 < full.embedBody.pos) := by decide

theorem witness_ExtractReadsRowMajor : 48 < full.w * full.h := by decide

/-- The last bit of the stream and the first bit of the untouched pixels. -/
theorem witness_ExtractAfterEmbed : 7 < min full.bitLen (full.w * full.h) ∧ ¬8 < min full.bitLen (full.w * full.h) ∧
    8 < full.w * full.h := by decide

/-- V-K3 (equality), V-K4, V-K5. -/
theorem witness_CapacityBoundary :
    (let s : State := { full with w := 8, msgLen := 5 }
     s.w * s.w = (s.msgLen + 3) * 8 ∧ s.w = 8 ∧ s.msgLen = 5) ∧
    (let s : State := { full with w := 7, msgLen := 5 }
     let s' : State := { full with w := 8, msgLen := 5 }
     s.w ≤ s'.w ∧ s'.msgLen ≤ s.msgLen ∧ s.w = 7 ∧ s.msgLen = 5) ∧
    (let s : State := { full with w := 8, msgLen := 6 }
     s.w = 8 ∧ s.msgLen = 6) := by decide

/-- The three clauses: no password; W = 8 with six bytes (V-K4), one too many; W = 8 with five (V-K3), exactly full. -/
theorem witness_HideEmbedsEncodedMessage : State.reset.keyLen = 0 ∧
    (let s : State := { full with w := 8, msgLen := 6 }
     s.keyLen ≠ 0 ∧ s.w * s.w < (s.msgLen + 3) * 8) ∧
    (let s : State := { full with w := 8, msgLen := 5 }
     s.keyLen ≠ 0 ∧ (s.msgLen + 3) * 8 ≤ s.w * s.w) := by decide

theorem witness_ShowDecodesGrid : State.reset.keyLen = 0 ∧ full.keyLen ≠ 0 := by decide

/-- A message of three bytes, the shortest whose payload could hold the pattern, in a 7 × 7 grid: 48 bits of 49. -/
theorem witness_HideShowRoundTrip :
    let s := bench [0x41#8, 0x42#8, 0x43#8] [0x20#8] 7 7 (plain 7 7 ⟨0, 0, 0⟩)
    s.keyLen ≠ 0 ∧ 8 * (s.msgLen + 3) ≤ s.w * s.w ∧ 8 * (s.msgLen + 3) ≤ s.w * s.h ∧
      ∀ q, ¬TermOn s.streamBit (8 * s.msgLen) q := by
  refine ⟨by decide, by decide, by decide, ?_⟩
  rintro q ⟨h1, h2, -⟩
  have h3 : q + 24 ≤ 24 := h1
  obtain rfl : q = 0 := by omega
  exact absurd (h2 1 (by decide)) (by decide +kernel)

/-- V-C5: the scrambled message is the terminator itself. -/
theorem witness_FalseTerminatorCutsMessage :
    let s := bench [0x6B#8, 0x6B#8, 0x68#8] [0x6B#8] 7 7 (plain 7 7 ⟨0, 0, 0⟩)
    s.keyLen ≠ 0 ∧ TermOn s.streamBit (8 * s.msgLen) 0 := by
  unfold TermOn
  decide +kernel

theorem witness_PipelinesAreSequences : full.keyLen ≠ 0 ∧ (full.msgLen + 3) * 8 ≤ full.w * full.w := by decide

theorem witness_RegReadReturnsValue : (1, full.err.code) ∈ [(1, full.err.code), (11, full.pos)] ∧
    (full.setHost [.regRead 1]).host = .regRead 1 :: [] ∧ (full.setHost [.regRead 11]).host = .regRead 11 :: [] := by decide

/-- The largest value of each width. -/
theorem witness_RegWriteReplacesRegister : 65535 < 2 ^ full.widths.dimBits ∧ 4294967295 < 2 ^ full.widths.lenBits ∧
    68719476735 < 2 ^ full.widths.posBits := by decide +kernel

/-- The smallest value of each width that does not fit, and the first number past the registers. -/
theorem witness_UndefinedRegisterAccessStops : 12 > 11 ∧ 256 ≥ 2 ^ 8 ∧ 65536 ≥ 2 ^ full.widths.dimBits ∧
    4294967296 ≥ 2 ^ full.widths.lenBits ∧ 68719476736 ≥ 2 ^ full.widths.posBits := by decide +kernel

/-- The last element of each memory with the largest value that fits, and another element. -/
theorem witness_HostWriteThenRead :
    ((Element.msg 4294967294).inCapacity full.widths = true ∧ (HostValue.num 255).Fits (.msg 4294967294)) ∧
    ((Element.key 4294967294).inCapacity full.widths = true ∧ (HostValue.num 255).Fits (.key 4294967294)) ∧
    ((Element.bits 68719476734).inCapacity full.widths = true ∧ (HostValue.num 1).Fits (.bits 68719476734)) ∧
    ((Element.out 68719476734).inCapacity full.widths = true ∧ (HostValue.num 255).Fits (.out 68719476734)) ∧
    ((Element.pix 65534 65534).inCapacity full.widths = true ∧ (HostValue.rgb 255 255 255).Fits (.pix 65534 65534)) ∧
    Element.msg 0 ≠ .msg 4294967294 := by
  simp only [HostValue.Fits]
  decide +kernel

/-- The first index past each capacity, and the smallest values that do not fit. -/
theorem witness_UndefinedMemoryAccessStops :
    (Element.msg 4294967295).inCapacity full.widths = false ∧ (Element.key 4294967295).inCapacity full.widths = false ∧
    (Element.bits 68719476735).inCapacity full.widths = false ∧ (Element.out 68719476735).inCapacity full.widths = false ∧
    (Element.pix 65535 0).inCapacity full.widths = false ∧ (Element.pix 0 65535).inCapacity full.widths = false ∧
    ((Element.msg 0).inCapacity full.widths = true ∧ ¬(HostValue.num 256).Fits (.msg 0)) ∧
    ((Element.bits 0).inCapacity full.widths = true ∧ ¬(HostValue.num 2).Fits (.bits 0)) ∧
    ((Element.pix 0 0).inCapacity full.widths = true ∧ ¬(HostValue.num 0).Fits (.pix 0 0)) := by
  simp only [HostValue.Fits]
  decide +kernel

/-- The last element of each memory is within its capacity. -/
theorem witness_StepPerformsMemoryTransactions :
    (Element.msg 4294967294).inCapacity full.widths = true ∧ (Element.key 4294967294).inCapacity full.widths = true ∧
    (Element.bits 68719476734).inCapacity full.widths = true ∧ (Element.out 68719476734).inCapacity full.widths = true ∧
    (Element.pix 65534 65534).inCapacity full.widths = true := by decide +kernel

end Sys2Proof.Tests
end

section
/-! SUPPORT. Proofs, family 00_scope.md: the capacities of the memories in numbers, and the invariant of the block, kept
by every update of one field, hence by every command, every event of the host and every step. -/

namespace Sys2Proof.Machine

/-! ### Capacities (00_scope.md R5, 20_memory.md R40, R53) -/

theorem Element.msg_inCapacity {c : Config.Widths} {i : Nat} :
    (Element.msg i).inCapacity c = true ↔ i < maxOf c.lenBits := by simp [Element.inCapacity]

theorem Element.key_inCapacity {c : Config.Widths} {i : Nat} :
    (Element.key i).inCapacity c = true ↔ i < maxOf c.lenBits := by simp [Element.inCapacity]

theorem Element.bits_inCapacity {c : Config.Widths} {k : Nat} :
    (Element.bits k).inCapacity c = true ↔ k < maxOf c.posBits := by simp [Element.inCapacity]

theorem Element.out_inCapacity {c : Config.Widths} {i : Nat} :
    (Element.out i).inCapacity c = true ↔ i < maxOf c.posBits := by simp [Element.inCapacity]

theorem Element.pix_inCapacity {c : Config.Widths} {x y : Nat} :
    (Element.pix x y).inCapacity c = true ↔ x < maxOf c.dimBits ∧ y < maxOf c.dimBits := by simp [Element.inCapacity]

/-- Settles O55: an index below the largest register value `2^n − 1` is one whose successor is at most that value. -/
theorem capacityBounds : Obligations.CapacityBounds := fun _ _ _ _ =>
  ⟨Element.msg_inCapacity, Element.key_inCapacity, Element.bits_inCapacity, Element.out_inCapacity,
    Element.pix_inCapacity⟩

/-- A count that fits a register of `n` bits is at most the capacity of a memory with that parameter. -/
theorem le_maxOf {n v : Nat} (h : v < 2 ^ n) : v ≤ maxOf n := Nat.le_sub_one_of_lt h

/-! ### The results of the commands fit their registers (00_scope.md R6) -/

theorem pow_lenBits_le_pow_posBits {c : Config.Widths} (hc : c.Ok) : 2 ^ c.lenBits ≤ 2 ^ c.posBits := by
  obtain ⟨-, -, -, hlen, -⟩ := hc
  exact Nat.pow_le_pow_right (by decide) (by omega)

/-- The length of the encoded stream fits `BIT_LEN` and `POS`. -/
theorem streamLength_lt {c : Config.Widths} (hc : c.Ok) {n : Nat} (hn : n < 2 ^ c.lenBits) :
    8 * (n + 3) < 2 ^ c.posBits := by
  obtain ⟨-, -, -, -, hstream⟩ := hc
  omega

/-- The number of pixels of the grid fits `BIT_LEN` and `POS`. -/
theorem gridSize_lt {c : Config.Widths} (hc : c.Ok) {w h : Nat} (hw : w < 2 ^ c.dimBits)
    (hh : h < 2 ^ c.dimBits) : w * h < 2 ^ c.posBits := by
  obtain ⟨-, -, hdim, -, -⟩ := hc
  calc w * h < 2 ^ c.dimBits * 2 ^ c.dimBits := Nat.mul_lt_mul'' hw hh
    _ = 2 ^ (2 * c.dimBits) := by rw [← Nat.pow_add, Nat.two_mul]
    _ ≤ 2 ^ c.posBits := Nat.pow_le_pow_right (by decide) hdim

/-! ### The invariant under an update of one field

`FLAGS`, the events still queued and the last reply are free: the invariant does not speak of them. -/

variable {s t : State}

theorem State.Inv.setErr {e : Err} (hs : s.Inv) (he : e ≠ .malformedTerminator ∧ e ≠ .encodingMismatch) :
    (s.setErr e).Inv :=
  let ⟨hok, hregs, _, hmem⟩ := hs
  ⟨hok, hregs, he, hmem⟩

theorem State.Inv.setFlags (hs : s.Inv) (f : Flags) : (s.setFlags f).Inv := hs

theorem State.Inv.setHost (hs : s.Inv) (es : List HostEvent) : (s.setHost es).Inv := hs

theorem State.Inv.setReply (hs : s.Inv) (v : HostValue) : (s.setReply v).Inv := hs

theorem State.Inv.setW {v : Nat} (hs : s.Inv) (hv : v < 2 ^ s.widths.dimBits) : ({ s with w := v } : State).Inv :=
  let ⟨hok, ⟨_, hregs⟩, hrest⟩ := hs
  ⟨hok, ⟨hv, hregs⟩, hrest⟩

theorem State.Inv.setH {v : Nat} (hs : s.Inv) (hv : v < 2 ^ s.widths.dimBits) : ({ s with h := v } : State).Inv :=
  let ⟨hok, ⟨hw, _, hregs⟩, hrest⟩ := hs
  ⟨hok, ⟨hw, hv, hregs⟩, hrest⟩

theorem State.Inv.setPx {v : Nat} (hs : s.Inv) (hv : v < 2 ^ s.widths.dimBits) : ({ s with px := v } : State).Inv :=
  let ⟨hok, ⟨hw, hh, _, hregs⟩, hrest⟩ := hs
  ⟨hok, ⟨hw, hh, hv, hregs⟩, hrest⟩

theorem State.Inv.setPy {v : Nat} (hs : s.Inv) (hv : v < 2 ^ s.widths.dimBits) : ({ s with py := v } : State).Inv :=
  let ⟨hok, ⟨hw, hh, hpx, _, hregs⟩, hrest⟩ := hs
  ⟨hok, ⟨hw, hh, hpx, hv, hregs⟩, hrest⟩

theorem State.Inv.setMsgLen {v : Nat} (hs : s.Inv) (hv : v < 2 ^ s.widths.lenBits) :
    ({ s with msgLen := v } : State).Inv :=
  let ⟨hok, ⟨hw, hh, hpx, hpy, _, hregs⟩, hrest⟩ := hs
  ⟨hok, ⟨hw, hh, hpx, hpy, hv, hregs⟩, hrest⟩

theorem State.Inv.setKeyLen {v : Nat} (hs : s.Inv) (hv : v < 2 ^ s.widths.lenBits) :
    ({ s with keyLen := v } : State).Inv :=
  let ⟨hok, ⟨hw, hh, hpx, hpy, hmsgLen, _, hregs⟩, hrest⟩ := hs
  ⟨hok, ⟨hw, hh, hpx, hpy, hmsgLen, hv, hregs⟩, hrest⟩

theorem State.Inv.setBitLen {v : Nat} (hs : s.Inv) (hv : v < 2 ^ s.widths.posBits) : (s.setBitLen v).Inv :=
  let ⟨hok, ⟨hw, hh, hpx, hpy, hmsgLen, hkeyLen, _, hregs⟩, hrest⟩ := hs
  ⟨hok, ⟨hw, hh, hpx, hpy, hmsgLen, hkeyLen, hv, hregs⟩, hrest⟩

theorem State.Inv.setOutLen {v : Nat} (hs : s.Inv) (hv : v < 2 ^ s.widths.posBits) :
    ({ s with outLen := v } : State).Inv :=
  let ⟨hok, ⟨hw, hh, hpx, hpy, hmsgLen, hkeyLen, hbitLen, _, hpos⟩, hrest⟩ := hs
  ⟨hok, ⟨hw, hh, hpx, hpy, hmsgLen, hkeyLen, hbitLen, hv, hpos⟩, hrest⟩

theorem State.Inv.setPos {v : Nat} (hs : s.Inv) (hv : v < 2 ^ s.widths.posBits) : (s.setPos v).Inv :=
  let ⟨hok, ⟨hw, hh, hpx, hpy, hmsgLen, hkeyLen, hbitLen, houtLen, _⟩, hrest⟩ := hs
  ⟨hok, ⟨hw, hh, hpx, hpy, hmsgLen, hkeyLen, hbitLen, houtLen, hv⟩, hrest⟩

theorem State.Inv.setMsg {m : Memory Byte} (hs : s.Inv) (hm : m.WfBelow (maxOf s.widths.lenBits)) : (s.setMsg m).Inv :=
  let ⟨hok, hregs, herr, _, hmem⟩ := hs
  ⟨hok, hregs, herr, hm, hmem⟩

theorem State.Inv.setKey {m : Memory Byte} (hs : s.Inv) (hm : m.WfBelow (maxOf s.widths.lenBits)) : (s.setKey m).Inv :=
  let ⟨hok, hregs, herr, hmsg, _, hmem⟩ := hs
  ⟨hok, hregs, herr, hmsg, hm, hmem⟩

theorem State.Inv.setBits {m : Memory Bit} (hs : s.Inv) (hm : m.WfBelow (maxOf s.widths.posBits)) : (s.setBits m).Inv :=
  let ⟨hok, hregs, herr, hmsg, hkey, _, hmem⟩ := hs
  ⟨hok, hregs, herr, hmsg, hkey, hm, hmem⟩

theorem State.Inv.setOut {m : Memory Byte} (hs : s.Inv) (hm : m.WfBelow (maxOf s.widths.posBits)) : (s.setOut m).Inv :=
  let ⟨hok, hregs, herr, hmsg, hkey, hbits, _, hpix⟩ := hs
  ⟨hok, hregs, herr, hmsg, hkey, hbits, hm, hpix⟩

theorem State.Inv.setPix {m : Memory Pixel} (hs : s.Inv) (hm : m.GridWf (maxOf s.widths.dimBits)) : (s.setPix m).Inv :=
  let ⟨hok, hregs, herr, hmsg, hkey, hbits, hout, _⟩ := hs
  ⟨hok, hregs, herr, hmsg, hkey, hbits, hout, hm⟩

/-! ### The invariant under the commands -/

theorem State.Inv.complete (hs : s.Inv) : s.complete.Inv := by
  have ⟨_, _, _, _, _, hbits, _⟩ := hs
  exact (hs.setBits (Memory.forgetFrom_wfBelow hbits s.bitLen)).setErr (by decide)

theorem State.Inv.discardBits (hs : s.Inv) : s.discardBits.Inv := hs.setBitLen (Nat.two_pow_pos _)

/-- SCRAMBLE fills `OUT` with as many bytes as the message has, and a message length fits `OUT_LEN`. -/
theorem State.Inv.scrambleBody (hs : s.Inv) : s.scrambleBody.Inv := by
  have ⟨hok, ⟨_, _, _, _, hmsgLen, _⟩, _⟩ := hs
  have hlen : s.msgLen < 2 ^ s.widths.posBits := lt_of_lt_of_le hmsgLen (pow_lenBits_le_pow_posBits hok)
  have hout : (s.out.fresh (scrambleWith s.keyByte s.message)).WfBelow (maxOf s.widths.posBits) :=
    Memory.fresh_wfBelow _ (by simpa using le_maxOf hlen)
  exact (hs.setOut hout).setOutLen hlen

theorem State.Inv.encodeBody (hs : s.Inv) : s.encodeBody.Inv := by
  have ⟨hok, ⟨_, _, _, _, hmsgLen, _⟩, _⟩ := hs
  have hlen : 8 * (s.msgLen + 3) < 2 ^ s.widths.posBits := streamLength_lt hok hmsgLen
  have hbits : (s.bits.fresh (encodeStream s.keyByte s.message)).WfBelow (maxOf s.widths.posBits) :=
    Memory.fresh_wfBelow _ (by simpa [encodeStream_length] using le_maxOf hlen)
  exact ((hs.setBits hbits).setBitLen hlen).setPos hlen

/-- The cut lies within the bitstream, so `POS` is at most `BIT_LEN` and `OUT_LEN` at most `POS`. -/
theorem State.Inv.decodeBody (hs : s.Inv) : s.decodeBody.Inv := by
  have ⟨_, ⟨_, _, _, _, _, _, hbitLen, _⟩, _⟩ := hs
  have hcut : cutIndex s.bitstream ≤ s.bitLen := by simpa using cutIndex_le s.bitstream
  have hpos : cutIndex s.bitstream < 2 ^ s.widths.posBits := by omega
  have hlen : cutIndex s.bitstream / 8 < 2 ^ s.widths.posBits := by omega
  have hout : (s.out.fresh (decodeStream s.keyByte s.bitstream)).WfBelow (maxOf s.widths.posBits) :=
    Memory.fresh_wfBelow _ (by simpa using le_maxOf hlen)
  exact (((hs.setOut hout).setOutLen hlen).setPos hpos).setFlags _

/-- EMBED writes pixels of the grid only, and as many as bits it has at most. -/
theorem State.Inv.embedBody (hs : s.Inv) : s.embedBody.Inv := by
  have ⟨_, ⟨hw, hh, _, _, _, _, hbitLen, _⟩, _, _, _, _, _, hpix⟩ := hs
  have hcount : s.embedCount < 2 ^ s.widths.posBits := lt_of_le_of_lt (Nat.min_le_left _ _) hbitLen
  exact (hs.setPix (s.embedGrid_gridWf hpix (le_maxOf hw) (le_maxOf hh))).setPos hcount

theorem State.Inv.extractBody (hs : s.Inv) : s.extractBody.Inv := by
  have ⟨hok, ⟨hw, hh, _⟩, _⟩ := hs
  have hlen : s.w * s.h < 2 ^ s.widths.posBits := gridSize_lt hok hw hh
  have hbits : (s.bits.fresh s.extractStream).WfBelow (maxOf s.widths.posBits) :=
    Memory.fresh_wfBelow _ (by simpa using le_maxOf hlen)
  exact ((hs.setBits hbits).setBitLen hlen).setPos hlen

/-- A pixel of the grid lies within the capacity of `PIX`. -/
theorem State.Inv.writePixelBit (hs : s.Inv) (b : Bit) (hp : s.px < s.w ∧ s.py < s.h) :
    (s.setPix (Machine.writePixelBit s.pix (pixKey s.px s.py) b)).Inv := by
  have ⟨_, ⟨hw, hh, _⟩, _, _, _, _, _, hpix⟩ := hs
  obtain ⟨hx, hy⟩ := hp
  exact hs.setPix (Memory.set_gridWf hpix (lt_of_lt_of_le hx (le_maxOf hw)) (lt_of_lt_of_le hy (le_maxOf hh)) _)

/-- Every command keeps the invariant, and the errors it raises are those of R151, R152 and R154. -/
theorem State.Inv.exec {i : Instr} (hs : s.Inv) (h : Machine.exec i s = .next t) : t.Inv := by
  cases exec_next h with
  | emptyPassword _ _ => exact hs.setErr (by decide)
  | outOfRange _ _ => exact hs.setErr (by decide)
  | capacityExceeded _ _ => exact hs.setErr (by decide)
  | scramble _ _ => exact hs.scrambleBody.complete
  | encode _ => exact hs.encodeBody.complete
  | decode _ => exact hs.decodeBody.complete
  | wrbit b hp => exact (hs.writePixelBit b hp).complete
  | rdbit _ => exact (hs.setFlags _).complete
  | embed => exact hs.embedBody.complete
  | extract => exact hs.extractBody.complete
  | capchk => exact (hs.setFlags _).complete
  | hide _ _ => exact hs.encodeBody.embedBody.discardBits.complete
  | showCmd _ => exact hs.extractBody.decodeBody.discardBits.complete

theorem State.Inv.runCommand {c : Byte} (hs : s.Inv) (h : s.runCommand c = .next t) : t.Inv := by
  unfold State.runCommand at h
  split at h
  case h_1 => exact hs.exec h
  case h_2 => cases h; exact hs.setErr (by decide)

/-! ### The invariant under the events of the host -/

theorem State.Inv.resetEvent (hs : s.Inv) : s.resetEvent.Inv := by
  have ⟨hok, _⟩ := hs
  have hpos : ∀ n, 0 < 2 ^ n := Nat.two_pow_pos
  have hpix : (s.pix.fresh []).GridWf (maxOf s.widths.dimBits) :=
    ⟨Memory.fresh_wf _ _, fun c hc => absurd hc List.not_mem_nil⟩
  exact ⟨hok, ⟨hpos _, hpos _, hpos _, hpos _, hpos _, hpos _, hpos _, hpos _, hpos _⟩, ⟨nofun, nofun⟩,
    Memory.fresh_wfBelow _ (Nat.zero_le _), Memory.fresh_wfBelow _ (Nat.zero_le _),
    Memory.fresh_wfBelow _ (Nat.zero_le _), Memory.fresh_wfBelow _ (Nat.zero_le _), hpix⟩

/-- A transaction that is refused unless `c` holds answers a next state only when `c` holds. -/
theorem next_of_guard {c : Prop} [Decidable c] {u : State} {r : Refusal}
    (h : (if c then .next u else .refused r : Host.Outcome State Fault Refusal) = .next t) : c ∧ t = u := by
  split at h
  case isTrue hc => cases h; exact ⟨hc, rfl⟩
  case isFalse => cases h

/-- A host write of a register is `Command`, or replaces one of the seven read/write registers by a value that fits. -/
theorem State.Inv.writeReg {n v : Nat} (hs : s.Inv) (h : s.writeReg n v = .next t) : t.Inv := by
  match n, h with
  | 0, h =>
    simp only [State.writeReg] at h
    split at h
    case isTrue => exact hs.runCommand h
    case isFalse => cases h
  | 3, h => obtain ⟨hv, rfl⟩ := next_of_guard h; exact hs.setW hv
  | 4, h => obtain ⟨hv, rfl⟩ := next_of_guard h; exact hs.setH hv
  | 5, h => obtain ⟨hv, rfl⟩ := next_of_guard h; exact hs.setMsgLen hv
  | 6, h => obtain ⟨hv, rfl⟩ := next_of_guard h; exact hs.setKeyLen hv
  | 7, h => obtain ⟨hv, rfl⟩ := next_of_guard h; exact hs.setPx hv
  | 8, h => obtain ⟨hv, rfl⟩ := next_of_guard h; exact hs.setPy hv
  | 9, h => obtain ⟨hv, rfl⟩ := next_of_guard h; exact hs.setBitLen hv
  | 1, h => cases h
  | 2, h => cases h
  | 10, h => cases h
  | 11, h => cases h
  | n + 12, h => cases h

/-- A host write of an element within the capacity writes there and nowhere else. -/
theorem State.Inv.writeElement {e : Element} {v : HostValue} (hs : s.Inv) (hc : e.inCapacity s.widths = true)
    (h : s.writeElement e v = .next t) : t.Inv := by
  have ⟨_, _, _, hmsg, hkey, hbits, hout, hpix⟩ := hs
  match e, v, h with
  | .msg i, .num v, h =>
    obtain ⟨-, rfl⟩ := next_of_guard h
    exact hs.setMsg (Memory.set_wfBelow hmsg (Element.msg_inCapacity.1 hc) _)
  | .key i, .num v, h =>
    obtain ⟨-, rfl⟩ := next_of_guard h
    exact hs.setKey (Memory.set_wfBelow hkey (Element.key_inCapacity.1 hc) _)
  | .bits k, .num v, h =>
    obtain ⟨-, rfl⟩ := next_of_guard h
    exact hs.setBits (Memory.set_wfBelow hbits (Element.bits_inCapacity.1 hc) _)
  | .out i, .num v, h =>
    obtain ⟨-, rfl⟩ := next_of_guard h
    exact hs.setOut (Memory.set_wfBelow hout (Element.out_inCapacity.1 hc) _)
  | .pix x y, .rgb r g b, h =>
    obtain ⟨-, rfl⟩ := next_of_guard h
    obtain ⟨hx, hy⟩ := Element.pix_inCapacity.1 hc
    exact hs.setPix (Memory.set_gridWf hpix hx hy _)
  | .msg _, .rgb _ _ _, h => cases h
  | .key _, .rgb _ _ _, h => cases h
  | .bits _, .rgb _ _ _, h => cases h
  | .out _, .rgb _ _ _, h => cases h
  | .pix _ _, .num _, h => cases h

theorem State.Inv.hostEvent {e : HostEvent} (hs : s.Inv) (h : s.hostEvent e = .next t) : t.Inv := by
  cases e with
  | reset => cases h; exact hs.resetEvent
  | regRead n =>
    simp only [State.hostEvent] at h
    split at h <;> cases h
    exact hs.setReply _
  | regWrite n v => exact hs.writeReg h
  | memRead e =>
    simp only [State.hostEvent] at h
    split at h <;> cases h
    exact hs.setReply _
  | memWrite e v =>
    simp only [State.hostEvent] at h
    split at h
    case isTrue hc => exact hs.writeElement hc h
    case isFalse => cases h
  | command c => exact hs.runCommand h

theorem State.Inv.nextEvent (hs : s.Inv) (h : s.nextEvent = .next t) : t.Inv := by
  unfold State.nextEvent at h
  split at h
  case h_1 => cases h; exact hs
  case h_2 e rest _ => exact (hs.setHost rest).hostEvent h

/-- Settles O11: a step is the next event of the host, and every event keeps the invariant. -/
theorem stepKeepsInvariant : Obligations.StepKeepsInvariant := fun _ _ hs h => hs.nextEvent h

end Sys2Proof.Machine
end

section
/-! SUPPORT. Proofs, family 10_state.md: what each command does to the flags, to `OUT`, to the other results and to the
grid, what it leaves alone, and the register transactions of the host. -/

namespace Sys2Proof.Machine

variable {s t : State} {i : Instr}

/-! ### The answers are what `exec` computes -/

/-- The converse of `exec_next`: each answer is the next state of its command. -/
theorem Answers.exec (h : Answers s i t) : Machine.exec i s = .next t := by
  cases h with
  | emptyPassword hi hk => exact exec_keyed_empty hi hk
  | outOfRange hi hp =>
    simp only [List.mem_cons, List.not_mem_nil, or_false] at hi
    rcases hi with rfl | rfl | rfl
    · exact exec_wrbit_out _ hp
    · exact exec_wrbit_out _ hp
    · exact exec_rdbit_out hp
  | capacityExceeded hk hc => exact exec_hide_capacity hk (by simp [hc])
  | scramble hi hk =>
    rcases hi with rfl | rfl
    · exact exec_scramble_ok hk
    · exact exec_unscramble_ok hk
  | encode hk => exact exec_encode_ok hk
  | decode hk => exact exec_decode_ok hk
  | wrbit b hp => exact exec_wrbit_ok b hp
  | rdbit hp => exact exec_rdbit_ok hp
  | embed => exact exec_embed s
  | extract => exact exec_extract s
  | capchk => exact exec_capchk s
  | hide hk hc => exact exec_hide_ok hk hc
  | showCmd hk => exact exec_showCmd_ok hk

/-! ### Operand registers, `MSG` and `KEY` (10_state.md R12, R20, R21) -/

/-- Settles O16: no answer, of an error or of an effect, touches the host's side of the state. -/
theorem commandsKeepInputs : Obligations.CommandsKeepInputs := fun _ _ _ h => by
  cases exec_next h <;> exact ⟨rfl, rfl, rfl, rfl, rfl, rfl, rfl, rfl, rfl, rfl, rfl⟩

/-! ### FLAGS (10_state.md R15) -/

/-- What a command that leaves the error code `e` may do to `FLAGS`, whatever they held: nothing, or replace its own
flag. -/
inductive FlagsWrite : Instr → Err → (Flags → Flags) → Prop where
  | keep {i : Instr} {e : Err} : FlagsWrite i e id
  | cap (v : Bit) : FlagsWrite .capchk .noError (·.withCap v)
  | tf {i : Instr} (hi : i = .decode ∨ i = .showCmd) (v : Bit) : FlagsWrite i .noError (·.withTf v)
  | rb (v : Bit) : FlagsWrite .rdbit .noError (·.withRb v)

/-- A command does to any `FLAGS` what it does to the present ones, and is otherwise the same run: each answer from the
state with other flags is the answer from the state itself with other flags. -/
theorem exec_flagsWrite (h : exec i s = .next t) :
    ∃ g, FlagsWrite i t.err g ∧ t.flags = g s.flags ∧ ∀ f, exec i (s.setFlags f) = .next (t.setFlags (g f)) := by
  cases exec_next h with
  | emptyPassword hi hk => exact ⟨id, .keep, rfl, fun _ => Answers.exec (.emptyPassword hi hk)⟩
  | outOfRange hi hp => exact ⟨id, .keep, rfl, fun _ => Answers.exec (.outOfRange hi hp)⟩
  | capacityExceeded hk hc => exact ⟨id, .keep, rfl, fun _ => Answers.exec (.capacityExceeded hk hc)⟩
  | scramble hi hk => exact ⟨id, .keep, rfl, fun _ => Answers.exec (.scramble hi hk)⟩
  | encode hk => exact ⟨id, .keep, rfl, fun _ => Answers.exec (.encode hk)⟩
  | decode hk => exact ⟨_, .tf (.inl rfl) _, rfl, fun _ => Answers.exec (.decode hk)⟩
  | wrbit b hp => exact ⟨id, .keep, rfl, fun _ => Answers.exec (.wrbit b hp)⟩
  | rdbit hp => exact ⟨_, .rb _, rfl, fun _ => Answers.exec (.rdbit hp)⟩
  | embed => exact ⟨id, .keep, rfl, fun _ => Answers.exec .embed⟩
  | extract => exact ⟨id, .keep, rfl, fun _ => Answers.exec .extract⟩
  | capchk => exact ⟨_, .cap _, rfl, fun _ => Answers.exec .capchk⟩
  | hide hk hc => exact ⟨id, .keep, rfl, fun _ => Answers.exec (.hide hk hc)⟩
  | showCmd hk => exact ⟨_, .tf (.inr rfl) _, rfl, fun _ => Answers.exec (.showCmd hk)⟩

/-- Settles O17: the one flag a command may replace is its own, and it does so only when it completes. -/
theorem flagWriters : Obligations.FlagWriters := fun i s t h => by
  obtain ⟨g, hg, hflags, -⟩ := exec_flagsWrite h
  rw [hflags]
  generalize t.err = e at hg ⊢
  cases hg with
  | keep => exact ⟨(absurd rfl ·), (absurd rfl ·), (absurd rfl ·)⟩
  | cap v => exact ⟨fun _ => ⟨rfl, rfl⟩, (absurd rfl ·), (absurd rfl ·)⟩
  | tf hi v => exact ⟨(absurd rfl ·), fun _ => ⟨hi, rfl⟩, (absurd rfl ·)⟩
  | rb v => exact ⟨(absurd rfl ·), (absurd rfl ·), fun _ => ⟨rfl, rfl⟩⟩

/-- Settles O20: the two runs differ in `FLAGS` alone, and apply one and the same write to them. -/
theorem flagsNeverRead : Obligations.FlagsNeverRead := fun i s f => by
  obtain ⟨t, ht⟩ := exec_answers i s
  obtain ⟨g, hg, hflags, hrun⟩ := exec_flagsWrite ht
  refine ⟨t, t.setFlags (g f), ht, hrun f, rfl, ?_⟩
  rw [State.setFlags_flags, hflags]
  generalize t.err = e at hg
  cases hg with
  | keep => exact ⟨.inr ⟨rfl, rfl⟩, .inr ⟨rfl, rfl⟩, .inr ⟨rfl, rfl⟩⟩
  | cap v => exact ⟨.inl rfl, .inr ⟨rfl, rfl⟩, .inr ⟨rfl, rfl⟩⟩
  | tf hi v => exact ⟨.inr ⟨rfl, rfl⟩, .inl rfl, .inr ⟨rfl, rfl⟩⟩
  | rb v => exact ⟨.inr ⟨rfl, rfl⟩, .inr ⟨rfl, rfl⟩, .inl rfl⟩

/-! ### `OUT` (10_state.md R23) -/

/-- The commands of column `OUT` of R29, which are those of `OUT_LEN`. -/
abbrev outWriters : List Instr := [.scramble, .unscramble, .decode, .showCmd]

theorem scramble_mem_outWriters (hi : i = .scramble ∨ i = .unscramble) : i ∈ outWriters := by
  rcases hi with rfl | rfl <;> decide

/-- What a command with the next state `t` does to `OUT`, whatever it held: leaves it, or, one of the commands that write
it and that completed, builds it afresh with `OUT_LEN` elements. -/
inductive OutWrite : Instr → State → (Memory Byte → Memory Byte) → Prop where
  | keep {i : Instr} {t : State} (h : i ∈ outWriters → t.err ≠ .noError) : OutWrite i t id
  | fresh {i : Instr} {t : State} (hi : i ∈ outWriters) (vs : List Byte) (hlen : vs.length = t.outLen) :
      OutWrite i t (·.fresh vs)

/-- A command does to any `OUT` what it does to the present one, and is otherwise the same run. -/
theorem exec_outWrite (h : exec i s = .next t) :
    ∃ g, OutWrite i t g ∧ t.out = g s.out ∧ ∀ m, exec i (s.setOut m) = .next (t.setOut (g m)) := by
  cases exec_next h with
  | emptyPassword hi hk => exact ⟨id, .keep fun _ => nofun, rfl, fun _ => Answers.exec (.emptyPassword hi hk)⟩
  | outOfRange hi hp => exact ⟨id, .keep fun _ => nofun, rfl, fun _ => Answers.exec (.outOfRange hi hp)⟩
  | capacityExceeded hk hc =>
    exact ⟨id, .keep fun _ => nofun, rfl, fun _ => Answers.exec (.capacityExceeded hk hc)⟩
  | scramble hi hk =>
    exact ⟨_, .fresh (scramble_mem_outWriters hi) _ (by simp), rfl, fun _ => Answers.exec (.scramble hi hk)⟩
  | encode hk => exact ⟨id, .keep (absurd · (by decide)), rfl, fun _ => Answers.exec (.encode hk)⟩
  | decode hk => exact ⟨_, .fresh (by decide) _ (by simp), rfl, fun _ => Answers.exec (.decode hk)⟩
  | wrbit b hp =>
    exact ⟨id, .keep (absurd · (by cases b <;> decide)), rfl, fun _ => Answers.exec (.wrbit b hp)⟩
  | rdbit hp => exact ⟨id, .keep (absurd · (by decide)), rfl, fun _ => Answers.exec (.rdbit hp)⟩
  | embed => exact ⟨id, .keep (absurd · (by decide)), rfl, fun _ => Answers.exec .embed⟩
  | extract => exact ⟨id, .keep (absurd · (by decide)), rfl, fun _ => Answers.exec .extract⟩
  | capchk => exact ⟨id, .keep (absurd · (by decide)), rfl, fun _ => Answers.exec .capchk⟩
  | hide hk hc => exact ⟨id, .keep (absurd · (by decide)), rfl, fun _ => Answers.exec (.hide hk hc)⟩
  | showCmd hk => exact ⟨_, .fresh (by decide) _ (by simp), rfl, fun _ => Answers.exec (.showCmd hk)⟩

/-- Settles O21: the two runs differ in `OUT` alone, and either leave it or fill it with the same elements. -/
theorem outNeverRead : Obligations.OutNeverRead := fun i s m => by
  obtain ⟨t, ht⟩ := exec_answers i s
  obtain ⟨g, hg, hout, hrun⟩ := exec_outWrite ht
  refine ⟨t, t.setOut (g m), ht, hrun m, rfl, ?_⟩
  rw [State.setOut_out, hout]
  cases hg with
  | keep _ => exact .inr ⟨rfl, rfl⟩
  | fresh _ vs _ => exact .inl rfl

/-! ### `BITS` and `BIT_LEN` (10_state.md R22) -/

/-- The commands of column `BITS` of R29, which are those of `BIT_LEN`. -/
abbrev bitsWriters : List Instr := [.encode, .extract, .hide, .showCmd]

/-- How a command ends, as `BITS` and `BIT_LEN` see it: with an error, or completed with the bitstream it found, or
completed with a bitstream built afresh. -/
inductive Ends (s : State) : Instr → State → Prop where
  | failed {i : Instr} {e : Err} (he : e ≠ .noError) : Ends s i (s.setErr e)
  | kept {i : Instr} (u : State) (hbits : u.bits = s.bits) (hlen : u.bitLen = s.bitLen) : Ends s i u.complete
  | built {i : Instr} (u : State) (hi : i ∈ bitsWriters) (vs : List Bit) (hbits : u.bits = s.bits.fresh vs) :
      Ends s i u.complete

theorem exec_ends (h : exec i s = .next t) : Ends s i t := by
  cases exec_next h with
  | emptyPassword _ _ => exact .failed nofun
  | outOfRange _ _ => exact .failed nofun
  | capacityExceeded _ _ => exact .failed nofun
  | scramble _ _ => exact .kept _ rfl rfl
  | encode _ => exact .built _ (by decide) _ rfl
  | decode _ => exact .kept _ rfl rfl
  | wrbit _ _ => exact .kept _ rfl rfl
  | rdbit _ => exact .kept _ rfl rfl
  | embed => exact .kept _ rfl rfl
  | extract => exact .built _ (by decide) _ rfl
  | capchk => exact .kept _ rfl rfl
  | hide _ _ => exact .built _ (by decide) _ rfl
  | showCmd _ => exact .built _ (by decide) _ rfl

theorem exec_bitLen_writer (h : exec i s = .next t) (hne : t.bitLen ≠ s.bitLen) : i ∈ bitsWriters := by
  cases exec_ends h with
  | failed _ => exact absurd rfl hne
  | kept _ _ hlen => exact absurd hlen hne
  | built _ hi _ _ => exact hi

theorem exec_bitstream_writer (h : exec i s = .next t) (hne : ¬s.SameBitstream t) : i ∈ bitsWriters := by
  cases exec_ends h with
  | failed _ => exact absurd (fun _ _ => rfl) hne
  | kept u hbits hlen => exact absurd (State.sameBitstream_complete hbits hlen) hne
  | built _ hi _ _ => exact hi

theorem State.complete_bits_tail (s : State) {k : Nat} (hk : s.bitLen ≤ k) :
    ¬s.complete.bits.Written k ∧ s.complete.bits.drawOf k = s.bits.drawOf k + 1 := by
  rw [State.complete_bits, Memory.written_forgetFrom, Memory.drawOf_forgetFrom, if_pos hk]
  exact ⟨fun ⟨hlt, _⟩ => absurd hk (Nat.not_le.2 hlt), rfl⟩

/-- A completed command leaves no element past the bitstream written, and each takes a new draw. -/
theorem exec_bits_tail (h : exec i s = .next t) (he : t.err = .noError) {k : Nat} (hk : t.bitLen ≤ k) :
    ¬t.bits.Written k ∧ s.bits.drawOf k < t.bits.drawOf k := by
  cases exec_ends h with
  | failed he' => exact absurd he he'
  | kept u hbits _ =>
    obtain ⟨hw, hd⟩ := u.complete_bits_tail hk
    rw [hbits] at hd
    exact ⟨hw, by omega⟩
  | built u _ vs hbits =>
    obtain ⟨hw, hd⟩ := u.complete_bits_tail hk
    rw [hbits, Memory.drawOf_fresh] at hd
    exact ⟨hw, by omega⟩

/-! ### The other results of a command (10_state.md R29) -/

theorem exec_outLen_writer (h : exec i s = .next t) (hne : t.outLen ≠ s.outLen) : i ∈ outWriters := by
  cases exec_next h with
  | scramble hi _ => exact scramble_mem_outWriters hi
  | decode _ | showCmd _ => decide
  | _ => exact absurd rfl hne

theorem exec_pos_writer (h : exec i s = .next t) (hne : t.pos ≠ s.pos) :
    i ∈ [.encode, .decode, .embed, .extract, .hide, .showCmd] := by
  cases exec_next h with
  | encode _ | decode _ | embed | extract | hide _ _ | showCmd _ => decide
  | _ => exact absurd rfl hne

theorem exec_pix_writer (h : exec i s = .next t) (hne : t.pix ≠ s.pix) :
    i ∈ [.wrbit false, .wrbit true, .embed, .hide] := by
  cases exec_next h with
  | wrbit b _ => cases b <;> decide
  | embed | hide _ _ => decide
  | _ => exact absurd rfl hne

theorem exec_out_writer (h : exec i s = .next t) (hne : t.out ≠ s.out) : i ∈ outWriters := by
  obtain ⟨g, hg, hout, -⟩ := exec_outWrite h
  cases hg with
  | keep _ => exact absurd hout hne
  | fresh hi _ _ => exact hi

/-- Settles O18: the columns of R29, one by one. -/
theorem resultWriters : Obligations.ResultWriters := fun _ _ _ h =>
  ⟨exec_bitLen_writer h, exec_outLen_writer h, exec_pos_writer h, exec_bitstream_writer h, exec_out_writer h,
    exec_pix_writer h⟩

/-! ### What is left unspecified (10_state.md R22, R23) -/

/-- A completed command that writes `OUT` leaves no element past `OUT_LEN` written, and each takes a new draw. -/
theorem exec_out_tail (h : exec i s = .next t) (he : t.err = .noError) (hi : i ∈ outWriters) {k : Nat}
    (hk : t.outLen ≤ k) : ¬t.out.Written k ∧ s.out.drawOf k < t.out.drawOf k := by
  obtain ⟨g, hg, hout, -⟩ := exec_outWrite h
  cases hg with
  | keep hfail => exact absurd he (hfail hi)
  | fresh _ vs hlen => simp [hout, Memory.written_fresh, hlen, hk]

/-- An unwritten element reads as the free value its draw names. -/
theorem Memory.read_of_not_written {α : Type} (free : Nat → Nat → α) {m : Memory α} {k : Nat} (h : ¬m.Written k) :
    m.read free k = free (m.drawOf k) k := by
  simp_all [Memory.Written, Memory.read]

/-- Settles O59: an element past the end is unwritten, so it reads as its free value, and its draw is a new one. -/
theorem tailsUnspecified : Obligations.TailsUnspecified := fun i s t h he => by
  refine ⟨fun k hk => ?_, fun hi k hk => ?_⟩
  · obtain ⟨hw, hd⟩ := exec_bits_tail h he hk
    exact ⟨hw, hd, Memory.read_of_not_written _ hw⟩
  · obtain ⟨hw, hd⟩ := exec_out_tail h he hi hk
    exact ⟨hw, hd, Memory.read_of_not_written _ hw⟩

/-! ### The grid (10_state.md R24) -/

/-- Settles O23: WRBIT's pixel is one of the grid, and so is every pixel EMBED's loop visits. -/
theorem pixelsOutsideGridKept : Obligations.PixelsOutsideGridKept := fun i s t h x y hout => by
  have hgrid : ¬(x < s.w ∧ y < s.h) := by omega
  cases exec_next h with
  | wrbit b hp =>
    refine read_writePixelBit_other s.pix b fun hkey => hgrid ?_
    obtain ⟨rfl, rfl⟩ := pixKey_inj.1 hkey
    exact hp
  | embed => exact s.read_embedGrid_outside fun ⟨hx, hy, _⟩ => hgrid ⟨hx, hy⟩
  | hide _ _ => exact s.encodeBody.read_embedGrid_outside fun ⟨hx, hy, _⟩ => hgrid ⟨hx, hy⟩
  | _ => rfl

/-- The grid `m` has the blue LSBs of the grid of `s`. -/
def State.SameBlueLsbs (s : State) (m : Memory Pixel) : Prop :=
  ∀ x y, ((s.setPix m).readPix x y).b.getLsbD 0 = (s.readPix x y).b.getLsbD 0

theorem State.SameBlueLsbs.extractStream {m : Memory Pixel} (hm : s.SameBlueLsbs m) :
    (s.setPix m).extractStream = s.extractStream :=
  List.map_congr_left fun k _ => by
    rw [readBit_eq, readBit_eq]
    exact hm (k % s.w) (k / s.w)

theorem State.SameBlueLsbs.extractBody {m : Memory Pixel} (hm : s.SameBlueLsbs m) :
    (s.setPix m).extractBody = s.extractBody.setPix m := by
  simp only [State.extractBody, hm.extractStream]
  rfl

/-- A reading command is the same run on a grid with the same blue LSBs. -/
theorem exec_setPix_of_reading {m : Memory Pixel} (hi : i ∈ [.rdbit, .extract, .showCmd]) (hm : s.SameBlueLsbs m) :
    exec i (s.setPix m) = mapNext (State.setPix · m) (exec i s) := by
  simp only [List.mem_cons, List.not_mem_nil, or_false] at hi
  rcases hi with rfl | rfl | rfl
  · by_cases hp : s.px < s.w ∧ s.py < s.h
    · have hbit := hm s.px s.py
      rw [exec_rdbit_ok hp, exec_rdbit_ok (s := s.setPix m) hp, State.setPix_px, State.setPix_py, hbit]
      rfl
    · rw [exec_rdbit_out hp, exec_rdbit_out (s := s.setPix m) hp]
      rfl
  · rw [exec_extract, exec_extract, hm.extractBody]
    rfl
  · by_cases hk : s.keyLen = 0
    · rw [exec_keyed_empty (by decide) hk, exec_keyed_empty (s := s.setPix m) (by decide) hk]
      rfl
    · rw [exec_showCmd_ok hk, exec_showCmd_ok (s := s.setPix m) hk, hm.extractBody]
      rfl

/-- Settles O24: RDBIT and EXTRACT read pixels by their blue LSBs only, and SHOW reads what EXTRACT left in `BITS`. -/
theorem onlyBlueLsbRead : Obligations.OnlyBlueLsbRead := fun i s m hi hm => by
  obtain ⟨t, ht⟩ := exec_answers i s
  exact ⟨t, t.setPix m, ht, by rw [exec_setPix_of_reading hi hm, ht]; rfl, rfl⟩

/-! ### Reset (10_state.md R28) -/

theorem Memory.not_written_of_empty {α : Type} {m : Memory α} (h : m.cells = []) (k : Nat) : ¬m.Written k := by
  simp [Memory.Written, h, lookupCell]

/-- Settles O8: the registers are read off the definition, and a memory without a cell has no written element. -/
theorem resetValues : Obligations.ResetValues :=
  ⟨rfl, rfl, rfl, rfl, rfl, rfl, rfl, rfl, rfl, rfl, rfl, rfl, rfl, rfl, rfl, fun k =>
    ⟨Memory.not_written_of_empty rfl k, Memory.not_written_of_empty rfl k, Memory.not_written_of_empty rfl k,
      Memory.not_written_of_empty rfl k, Memory.not_written_of_empty rfl k⟩⟩

theorem defaultWidths_ok : Config.defaultWidths.Ok := by decide

/-- Settles O10: the default parameters are legal, every register is 0 and no memory has a cell. -/
theorem resetMeetsInvariant : Obligations.ResetMeetsInvariant := by
  have hfit : State.reset.RegistersFit := by decide
  have hmem : State.reset.MemoriesWf := by decide
  exact ⟨defaultWidths_ok, hfit, by decide, hmem⟩

/-! ### Register transactions (10_state.md R11, R19) -/

/-- A step performs the host's next event, with that event removed (20_memory.md R50). -/
theorem step_of_host {e : HostEvent} {rest : List HostEvent} (h : s.host = e :: rest) :
    step s = (s.setHost rest).hostEvent e := by
  simp [step, State.nextEvent, h]

/-- The register map as a list of number and value. -/
theorem State.readReg_of_mem {p : Nat × Nat}
    (hp : p ∈ [(1, s.err.code), (2, s.flags.toNat), (3, s.w), (4, s.h), (5, s.msgLen), (6, s.keyLen), (7, s.px),
      (8, s.py), (9, s.bitLen), (10, s.outLen), (11, s.pos)]) : s.readReg p.1 = .next p.2 := by
  simp only [List.mem_cons, List.not_mem_nil, or_false] at hp
  rcases hp with rfl | rfl | rfl | rfl | rfl | rfl | rfl | rfl | rfl | rfl | rfl <;> rfl

theorem State.hostEvent_regRead {n v : Nat} (h : s.readReg n = .next v) :
    s.hostEvent (.regRead n) = .next (s.setReply (.num v)) := by
  simp only [State.hostEvent, h]

/-- Settles O50: the reply is the value the register map gives, and nothing else is touched. -/
theorem regReadReturnsValue : Obligations.RegReadReturnsValue := fun s rest p hp hhost => by
  rw [step_of_host hhost, State.hostEvent_regRead (s := s.setHost rest) (State.readReg_of_mem hp)]
  rfl

theorem writeFitting_fits {bits v : Nat} (h : v < 2 ^ bits) (t : State) : writeFitting bits v t = .next t := if_pos h

theorem writeFitting_tooWide {bits v : Nat} (h : v ≥ 2 ^ bits) (t : State) :
    writeFitting bits v t = .refused .valueTooWide := if_neg (Nat.not_lt.2 h)

/-- Settles O51: each read/write register is written through `writeFitting` with its own width. -/
theorem regWriteReplacesRegister : Obligations.RegWriteReplacesRegister := fun _ _ _ =>
  ⟨fun hv => ⟨writeFitting_fits hv _, writeFitting_fits hv _, writeFitting_fits hv _, writeFitting_fits hv _⟩,
    fun hv => ⟨writeFitting_fits hv _, writeFitting_fits hv _⟩, fun hv => writeFitting_fits hv _⟩

theorem State.writeReg_readOnly (s : State) {n : Nat} (hn : n ∈ [1, 2, 10, 11]) (v : Nat) :
    s.writeReg n v = .refused .writeOfReadOnly := by
  simp only [List.mem_cons, List.not_mem_nil, or_false] at hn
  rcases hn with rfl | rfl | rfl | rfl <;> rfl

/-- There is no register above 11. -/
theorem State.hostEvent_noSuchRegister (s : State) {n : Nat} (hn : n > 11) (v : Nat) :
    s.hostEvent (.regRead n) = .fault .noSuchRegister ∧ s.hostEvent (.regWrite n v) = .fault .noSuchRegister := by
  obtain ⟨m, rfl⟩ := Nat.exists_eq_add_of_lt hn
  rw [Nat.add_right_comm, Nat.add_comm]
  exact ⟨rfl, rfl⟩

theorem State.writeReg_cmd_tooWide (s : State) {v : Nat} (hv : v ≥ 2 ^ 8) :
    s.writeReg 0 v = .refused .valueTooWide := if_neg (Nat.not_lt.2 hv)

theorem State.writeReg_dim_tooWide {v : Nat} (hv : v ≥ 2 ^ s.widths.dimBits) {n : Nat} (hn : n ∈ [3, 4, 7, 8]) :
    s.writeReg n v = .refused .valueTooWide := by
  simp only [List.mem_cons, List.not_mem_nil, or_false] at hn
  rcases hn with rfl | rfl | rfl | rfl <;> exact writeFitting_tooWide hv _

theorem State.writeReg_len_tooWide {v : Nat} (hv : v ≥ 2 ^ s.widths.lenBits) {n : Nat} (hn : n ∈ [5, 6]) :
    s.writeReg n v = .refused .valueTooWide := by
  simp only [List.mem_cons, List.not_mem_nil, or_false] at hn
  rcases hn with rfl | rfl <;> exact writeFitting_tooWide hv _

/-- Settles O52: a read of `CMD`, then the writes, the numbers above 11 and the values too wide, by the register map. -/
theorem undefinedRegisterAccessStops : Obligations.UndefinedRegisterAccessStops := fun s rest v =>
  ⟨rfl, fun _ hn => (s.setHost rest).writeReg_readOnly hn v,
    fun _ hn => (s.setHost rest).hostEvent_noSuchRegister hn v, (s.setHost rest).writeReg_cmd_tooWide,
    fun hv _ hn => State.writeReg_dim_tooWide (s := s.setHost rest) hv hn,
    fun hv _ hn => State.writeReg_len_tooWide (s := s.setHost rest) hv hn, fun hv => writeFitting_tooWide hv _⟩

end Sys2Proof.Machine
end

section
/-! SUPPORT. Proofs, family 20_memory.md: the order of bits within bytes, a step on a command word, and the memory
transactions of the host. -/

namespace Sys2Proof.Machine

variable {s t : State} {e : Element} {v : HostValue}

/-! ### Bit order (20_memory.md R42) -/

/-- The bits put together to a byte are its bits, MSB first. -/
theorem bitsOfByte_byteOfBits : ∀ b7 b6 b5 b4 b3 b2 b1 b0 : Bit,
    bitsOfByte (byteOfBits b7 b6 b5 b4 b3 b2 b1 b0) = [b7, b6, b5, b4, b3, b2, b1, b0] := by
  decide +kernel

/-- Settles O29: byte and bit of an index are its quotient and remainder by 8; the rest is the laws of the serialiser. -/
theorem bitOrderMsbFirst : Obligations.BitOrderMsbFirst := by
  refine ⟨fun bytes i j v hv hj => ?_, fun stream i hi => ?_, bytesOfBits_bitsOfBytes, bitsOfByte_byteOfBits⟩
  · have hbyte : (8 * i + j) / 8 = i := by omega
    have hbit : (8 * i + j) % 8 = j := by omega
    rw [bitsOfBytes_getElem?, hbyte, hbit, hv, Option.map_some]
  · exact bytesOfBits_getElem? stream i (by omega)

/-! ### Commands (20_memory.md R52, 30_encoding.md R68) -/

theorem State.runCommand_of_decode {c : Byte} {i : Instr} (h : decode c = .ok i) (s : State) :
    s.runCommand c = exec i s := by
  rw [State.runCommand, h]

/-- Settles O5: the next event is the command, and the command runs what its word decodes to. -/
theorem stepRunsDecodedCommand : Obligations.StepRunsDecodedCommand := fun s _ _ rest hhost hdec =>
  (step_of_host hhost).trans ((s.setHost rest).runCommand_of_decode hdec)

theorem State.writeReg_cmd (s : State) {v : Nat} (hv : v < 2 ^ 8) :
    s.writeReg 0 v = s.runCommand (BitVec.ofNat 8 v) := if_pos hv

/-- Settles O6: a write of register 0 by a value that fits runs the command word. -/
theorem writeOfCmdIsCommand : Obligations.WriteOfCmdIsCommand := fun s _ rest hv =>
  (s.setHost rest).writeReg_cmd hv

/-! ### Memory transactions (20_memory.md R52, R53) -/

theorem State.hostEvent_memRead (h : e.inCapacity s.widths = true) :
    s.hostEvent (.memRead e) = .next (s.setReply (s.readElement e)) := if_pos h

theorem State.hostEvent_memWrite (h : e.inCapacity s.widths = true) :
    s.hostEvent (.memWrite e v) = s.writeElement e v := if_pos h

/-- There is no element outside the capacity. -/
theorem State.hostEvent_outsideCapacity (h : e.inCapacity s.widths = false) :
    s.hostEvent (.memRead e) = .fault .outsideCapacity ∧ s.hostEvent (.memWrite e v) = .fault .outsideCapacity := by
  simp [State.hostEvent, h]

theorem State.writeElement_of_not_fits (hv : ¬v.Fits e) : s.writeElement e v = .refused .valueTooWide := by
  match e, v, hv with
  | .msg _, .num _, hv | .key _, .num _, hv | .bits _, .num _, hv | .out _, .num _, hv => exact if_neg hv
  | .pix _ _, .rgb _ _ _, hv => exact if_neg hv
  | .msg _, .rgb _ _ _, _ | .key _, .rgb _ _ _, _ | .bits _, .rgb _ _ _, _ | .out _, .rgb _ _ _, _ => rfl
  | .pix _ _, .num _, _ => rfl

/-- Settles O54: the capacity is judged before the value. -/
theorem undefinedMemoryAccessStops : Obligations.UndefinedMemoryAccessStops := fun _ _ _ =>
  ⟨State.hostEvent_outsideCapacity, fun hc hv => (State.hostEvent_memWrite hc).trans (State.writeElement_of_not_fits hv)⟩

/-- Settles O57: a read replies what its element's memory reads as; a write is the host's event itself. -/
theorem stepPerformsMemoryTransactions : Obligations.StepPerformsMemoryTransactions :=
  ⟨fun s rest e hc => by
    rw [step_of_host rfl]
    exact (State.hostEvent_memRead (s := s.setHost rest) hc).trans (by cases e <;> rfl),
   fun _ _ _ _ => rfl⟩

/-- `t` is `s` with the value `v` written to the element `e`: one constructor for each memory, the value as the host
reads the byte, bit or pixel that is stored. -/
inductive ElementWrite (s : State) : Element → HostValue → State → Prop where
  | msg (i : Nat) (b : Byte) : ElementWrite s (.msg i) (.num b.toNat) (s.setMsg (s.msg.set i b))
  | key (i : Nat) (b : Byte) : ElementWrite s (.key i) (.num b.toNat) (s.setKey (s.key.set i b))
  | bits (k : Nat) (b : Bit) : ElementWrite s (.bits k) (.num b.toNat) (s.setBits (s.bits.set k b))
  | out (i : Nat) (b : Byte) : ElementWrite s (.out i) (.num b.toNat) (s.setOut (s.out.set i b))
  | pix (x y : Nat) (p : Pixel) :
    ElementWrite s (.pix x y) (.rgb p.r.toNat p.g.toNat p.b.toNat) (s.setPix (s.pix.set (pixKey x y) p))

/-- A value fits an element when it is what the host reads of something the element can store. -/
theorem HostValue.Fits.elementWrite (hv : v.Fits e) (s : State) : ∃ t, ElementWrite s e v t := by
  match e, v, hv with
  | .msg i, .num _, hv => exact ⟨_, .msg i (BitVec.ofNatLT _ hv)⟩
  | .key i, .num _, hv => exact ⟨_, .key i (BitVec.ofNatLT _ hv)⟩
  | .bits k, .num 0, _ => exact ⟨_, .bits k false⟩
  | .bits k, .num 1, _ => exact ⟨_, .bits k true⟩
  | .out i, .num _, hv => exact ⟨_, .out i (BitVec.ofNatLT _ hv)⟩
  | .pix x y, .rgb _ _ _, ⟨hr, hg, hb⟩ =>
    exact ⟨_, .pix x y ⟨BitVec.ofNatLT _ hr, BitVec.ofNatLT _ hg, BitVec.ofNatLT _ hb⟩⟩

namespace ElementWrite

/-- The host's write of an element answers that state. -/
theorem writeElement_eq (h : ElementWrite s e v t) : s.writeElement e v = .next t := by
  cases h with
  | msg _ b | key _ b | out _ b => simp [State.writeElement, b.isLt]
  | bits _ b => cases b <;> rfl
  | pix _ _ p => simp [State.writeElement, p.r.isLt, p.g.isLt, p.b.isLt]

theorem readElement_same (h : ElementWrite s e v t) : t.readElement e = v := by
  cases h with
  | msg i b => simp [State.readElement, State.readMsg]
  | key i b => simp [State.readElement, State.readKey]
  | bits k b => simp [State.readElement, State.readBits]
  | out i b => simp [State.readElement, State.readOut]
  | pix x y p => simp [State.readElement, State.readPix]

/-- Within the memory written, elements differ by their index; the other memories are as before. -/
theorem readElement_other {e' : Element} (h : ElementWrite s e v t) (he : e' ≠ e) :
    t.readElement e' = s.readElement e' := by
  cases h with
  | msg i b =>
    cases e' with
    | msg j =>
      have hj : j ≠ i := by simpa using he
      simp [State.readElement, State.readMsg, Memory.read_set_other _ _ _ hj]
    | _ => rfl
  | key i b =>
    cases e' with
    | key j =>
      have hj : j ≠ i := by simpa using he
      simp [State.readElement, State.readKey, Memory.read_set_other _ _ _ hj]
    | _ => rfl
  | bits k b =>
    cases e' with
    | bits j =>
      have hj : j ≠ k := by simpa using he
      simp [State.readElement, State.readBits, Memory.read_set_other _ _ _ hj]
    | _ => rfl
  | out i b =>
    cases e' with
    | out j =>
      have hj : j ≠ i := by simpa using he
      simp [State.readElement, State.readOut, Memory.read_set_other _ _ _ hj]
    | _ => rfl
  | pix x y p =>
    cases e' with
    | pix x' y' =>
      have hkey : pixKey x' y' ≠ pixKey x y := by simpa [pixKey_inj] using he
      simp [State.readElement, State.readPix, Memory.read_set_other _ _ _ hkey]
    | _ => rfl

theorem sameRegisters (h : ElementWrite s e v t) : s.SameRegisters t := by
  cases h <;> exact ⟨rfl, rfl, rfl, rfl, rfl, rfl, rfl, rfl, rfl, rfl, rfl, rfl⟩

theorem host_eq (h : ElementWrite s e v t) : t.host = s.host := by cases h <;> rfl

theorem reply_eq (h : ElementWrite s e v t) : t.reply = s.reply := by cases h <;> rfl

end ElementWrite

/-- Settles O53: the value fits, so it is stored as it stands, in the one element; the capacity is as before. -/
theorem hostWriteThenRead : Obligations.HostWriteThenRead := fun s e v hc hv => by
  obtain ⟨t, h⟩ := hv.elementWrite s
  have ⟨hwidths, _⟩ := h.sameRegisters
  have hc' : e.inCapacity t.widths = true := hwidths ▸ hc
  have hread : t.hostEvent (.memRead e) = .next (t.setReply v) := by
    rw [State.hostEvent_memRead hc', h.readElement_same]
  exact ⟨t, (State.hostEvent_memWrite hc).trans h.writeElement_eq, hread, fun _ => h.readElement_other,
    h.sameRegisters, h.host_eq, h.reply_eq⟩

end Sys2Proof.Machine
end

section
/-! SUPPORT. Proofs, family 30_encoding.md: the command word and its fields, the pixel as the commands change it, and the
notation for host programs. -/

namespace Sys2Proof

variable {c : Byte} {i : Instr}

/-! ### The fields of the command word (30_encoding.md R66) -/

/-- A word is made of its three fields. -/
theorem fields_append (c : Byte) : c.extractLsb' 5 3 ++ BitVec.ofBool (c.getLsbD 4) ++ c.extractLsb' 0 4 = c := by
  have h : ∀ c : Byte, c.extractLsb' 5 3 ++ BitVec.ofBool (c.getLsbD 4) ++ c.extractLsb' 0 4 = c := by decide +kernel
  exact h c

/-- The words with the fields of the instruction `i`. -/
structure HasFields (c : Byte) (i : Instr) : Prop where
  zero : zeroField c = 0
  operand : operandBit c = i.operand
  op : opField c = i.opcode.toNat

/-- Bits 7:4 are zero when bits 7:5 are and so is bit 4. -/
theorem zeroField_operandBit_of_upper (h : c.extractLsb' 4 4 = 0#4) : zeroField c = 0 ∧ operandBit c = false := by
  have hall : ∀ c : Byte, c.extractLsb' 4 4 = 0#4 → zeroField c = 0 ∧ operandBit c = false := by decide +kernel
  exact hall c h

theorem encode_hasFields (i : Instr) : HasFields (encode i) i := by
  cases i with
  | wrbit b => cases b <;> exact ⟨rfl, rfl, rfl⟩
  | _ => exact ⟨rfl, rfl, rfl⟩

/-- The encoder gives the one word with the fields of the instruction. -/
theorem encode_eq_iff : encode i = c ↔ HasFields c i := by
  refine ⟨fun h => h ▸ encode_hasFields i, fun ⟨hz, hb, ho⟩ => ?_⟩
  have hzero : c.extractLsb' 5 3 = 0#3 := BitVec.eq_of_toNat_eq hz
  have hop : c.extractLsb' 0 4 = i.opcode := BitVec.eq_of_toNat_eq ho
  calc encode i = c.extractLsb' 5 3 ++ BitVec.ofBool (c.getLsbD 4) ++ c.extractLsb' 0 4 := by
        rw [encode, hzero, hop, ← hb, operandBit]
    _ = c := fields_append c

/-! ### Decode and encode (30_encoding.md R67, R72) -/

theorem wellFormed_iff : WellFormed i = true ↔ i.core = i := beq_iff_eq

theorem Instr.core_core (i : Instr) : i.core.core = i.core := by cases i <;> rfl

/-- An alias has the word of the instruction it names. -/
theorem encode_core (i : Instr) : encode i.core = encode i := by cases i <;> rfl

theorem decodeN_eq_ok {j : Instr} (h : decodeN c j = .ok i) : j = i ∧ zeroField c = 0 ∧ operandBit c = false := by
  unfold decodeN at h
  split at h
  case isTrue hc => cases h; exact ⟨rfl, hc⟩
  case isFalse => cases h

/-- A word that decodes has the fields of the instruction it decodes to, and that is not an alias. -/
theorem decode_hasFields (h : decode c = .ok i) : HasFields c i ∧ i.core = i := by
  unfold decode at h
  split at h
  case h_4 hop =>
    split at h
    case isTrue hz => cases h; exact ⟨⟨hz, rfl, hop⟩, rfl⟩
    case isFalse => cases h
  case h_11 => cases h
  all_goals
    obtain ⟨rfl, hz, hb⟩ := decodeN_eq_ok h
    exact ⟨⟨hz, hb, by assumption⟩, rfl⟩

/-- A word with the fields of an instruction that is not an alias decodes to it. -/
theorem HasFields.decode_eq (h : HasFields c i) (hi : i.core = i) : decode c = .ok i := by
  obtain ⟨hz, hb, ho⟩ := h
  cases i with
  | unscramble => cases hi
  | wrbit b => simp [decode, ho, Instr.opcode, hz, hb, Instr.operand]
  | _ => simp [decode, ho, Instr.opcode, decodeN, hz, hb, Instr.operand]

/-- A word decodes to an instruction just when it is its word and the instruction is no alias. -/
theorem decode_eq_ok_iff : decode c = .ok i ↔ encode i = c ∧ i.core = i := by
  rw [encode_eq_iff]
  exact ⟨decode_hasFields, fun ⟨hf, hi⟩ => hf.decode_eq hi⟩

theorem decode_encode (i : Instr) : decode (encode i) = .ok i.core :=
  decode_eq_ok_iff.2 ⟨encode_core i, i.core_core⟩

/-- Settles O3: decoder and encoder are both given by the fields of the word. -/
theorem decodeEncodeAgree : Obligations.DecodeEncodeAgree :=
  ⟨fun _ hi => decode_eq_ok_iff.2 ⟨rfl, wellFormed_iff.1 hi⟩, decode_encode, fun _ _ h =>
    (decode_eq_ok_iff.1 h).imp_right wellFormed_iff.2⟩

/-- Settles O2: each word is the word of its command. -/
theorem familyWordsDecode : Obligations.FamilyWordsDecode :=
  ⟨decode_encode .scramble, decode_encode .encode, decode_encode .decode, decode_encode (.wrbit false),
    decode_encode (.wrbit true), decode_encode .extract, decode_encode .capchk, decode_encode .showCmd⟩

/-! ### The legal words (30_encoding.md R67) -/

/-- The words of the opcode map. -/
def legalWords : List Byte :=
  [0x01#8, 0x02#8, 0x03#8, 0x04#8, 0x14#8, 0x05#8, 0x06#8, 0x07#8, 0x08#8, 0x09#8, 0x0A#8]

theorem encode_mem_legalWords (i : Instr) : encode i ∈ legalWords := by
  cases i with
  | wrbit b => cases b <;> decide
  | _ => decide

theorem isSome_decode_iff : (decode c).toOption.isSome ↔ c ∈ legalWords := by
  constructor
  · intro h
    cases hd : decode c with
    | ok i => exact (decode_eq_ok_iff.1 hd).1 ▸ encode_mem_legalWords i
    | error r => simp [hd, Except.toOption] at h
  · have hall : ∀ c ∈ legalWords, (decode c).toOption.isSome := by decide
    exact hall c

/-- A word of format N, with bits 7:4 zero, decodes by its opcode. -/
theorem decode_formatN (i : Instr) (hc : c.extractLsb' 4 4 = 0#4) (hi : i.core = i) (hb : i.operand = false)
    (ho : c.extractLsb' 0 4 = i.opcode) : decode c = .ok i :=
  have ⟨hzero, hoperand⟩ := zeroField_operandBit_of_upper hc
  HasFields.decode_eq ⟨hzero, hoperand.trans hb.symm, congrArg BitVec.toNat ho⟩ hi

/-- Settles O1: the fields of the word say what it decodes to; the words are counted one by one. -/
theorem decoderFollowsOpcodeMap : Obligations.DecoderFollowsOpcodeMap := by
  refine ⟨fun c => ⟨fun ⟨hop, hz⟩ => ?_, fun hc => ?_, isSome_decode_iff⟩, by decide +kernel, by decide +kernel⟩
  · exact HasFields.decode_eq ⟨congrArg BitVec.toNat hz, rfl, congrArg BitVec.toNat hop⟩ rfl
  · exact ⟨decode_formatN .scramble hc rfl rfl, decode_formatN .encode hc rfl rfl, decode_formatN .decode hc rfl rfl,
      decode_formatN .rdbit hc rfl rfl, decode_formatN .embed hc rfl rfl, decode_formatN .extract hc rfl rfl,
      decode_formatN .capchk hc rfl rfl, decode_formatN .hide hc rfl rfl, decode_formatN .showCmd hc rfl rfl⟩

end Sys2Proof

namespace Sys2Proof.Machine

variable {s t : State}

/-! ### The pixels (30_encoding.md R63) -/

theorem readPix_setPix_writePixelBit (s : State) (k : Nat) (b : Bit) (x y : Nat) :
    (s.setPix (writePixelBit s.pix k b)).readPix x y = s.readPix x y ∨
      (s.setPix (writePixelBit s.pix k b)).readPix x y = writeBit (s.readPix x y) b := by
  by_cases hkey : pixKey x y = k
  · subst hkey
    exact .inr (read_writePixelBit_same _ _ _)
  · exact .inl (read_writePixelBit_other _ _ hkey)

theorem State.embedBody_readPix (s : State) (x y : Nat) :
    s.embedBody.readPix x y = s.readPix x y ∨ ∃ b, s.embedBody.readPix x y = writeBit (s.readPix x y) b := by
  rcases s.read_embedGrid_cases (pixKey x y) with ⟨k, _, _, hit⟩ | hmiss
  · exact .inr ⟨_, hit⟩
  · exact .inl hmiss

/-- All a command can do to a pixel is to leave it or to write its blue LSB. -/
theorem exec_readPix {i : Instr} (h : exec i s = .next t) (x y : Nat) :
    t.readPix x y = s.readPix x y ∨ ∃ b, t.readPix x y = writeBit (s.readPix x y) b := by
  cases exec_next h with
  | wrbit b _ => exact (readPix_setPix_writePixelBit s _ b x y).imp_right fun hw => ⟨b, hw⟩
  | embed => exact s.embedBody_readPix x y
  | hide _ _ => exact s.encodeBody.embedBody_readPix x y
  | _ => exact .inl rfl

/-- Settles O22: a write of the blue LSB keeps the rest of the pixel. -/
theorem onlyBlueLsbChanges : Obligations.OnlyBlueLsbChanges := fun i s t h x y => by
  rcases exec_readPix h x y with hp | ⟨b, hp⟩ <;> rw [hp]
  · exact ⟨rfl, rfl, rfl⟩
  · exact ⟨writeBit_r _ b, writeBit_g _ b, writeBit_upper _ b⟩

/-! ### The lines of a host program (30_encoding.md R71) -/

/-- In a space where the next element has the next index, `load` writes one value to each index in turn. -/
theorem loadEvents_eq_mapIdx (elementAt : Nat → Element) (hnext : ∀ i, (elementAt i).next = elementAt (i + 1)) (i : Nat)
    (vs : List HostValue) :
    loadEvents (elementAt i) vs = vs.mapIdx fun k v => .memWrite (elementAt (i + k)) v := by
  induction vs generalizing i with
  | nil => rfl
  | cons v vs ih =>
    simp only [loadEvents, hnext, ih (i + 1), List.mapIdx_cons, Nat.add_zero, Nat.add_right_comm i, Nat.add_assoc]

theorem fill_length (w h r g b : Nat) : ((HostLine.fill r g b).events w h).length = w * h := by
  simp [HostLine.events, List.length_flatMap, Nat.mul_comm]

theorem mem_fill {w h r g b : Nat} {e : HostEvent} : e ∈ (HostLine.fill r g b).events w h ↔
    ∃ x y, x < w ∧ y < h ∧ e = .memWrite (.pix x y) (.rgb r g b) := by
  simp only [HostLine.events, List.mem_flatMap, List.mem_map, List.mem_range]
  constructor
  · rintro ⟨y, hy, x, hx, rfl⟩
    exact ⟨x, y, hx, hy, rfl⟩
  · rintro ⟨x, y, hx, hy, rfl⟩
    exact ⟨y, hy, x, hx, rfl⟩

theorem encode_wrbit (b : Bit) : encode (.wrbit b) = 0x04#8 ||| ((BitVec.ofBool b).setWidth 8 <<< 4) := by
  cases b <;> rfl

/-- Settles O56: the numbers are the rows of the register map; of the lines, `load` and `fill` stand for lists. -/
theorem hostLineTransactions : Obligations.HostLineTransactions :=
  ⟨⟨rfl, rfl, rfl, rfl, rfl, rfl, rfl, rfl, rfl, rfl, rfl, rfl⟩, fun _ _ _ _ => ⟨rfl, rfl⟩, fun _ _ _ => rfl,
    fun _ _ i vs => ⟨loadEvents_eq_mapIdx .msg (fun _ => rfl) i vs, loadEvents_eq_mapIdx .key (fun _ => rfl) i vs,
      loadEvents_eq_mapIdx .bits (fun _ => rfl) i vs, loadEvents_eq_mapIdx .out (fun _ => rfl) i vs⟩,
    fun _ _ _ _ _ => rfl, fun w h r g b => ⟨fill_length w h r g b, fun _ => mem_fill⟩, fun _ _ _ => rfl, encode_wrbit⟩

/-! ### Issuing a host program (30_encoding.md R71, 20_memory.md R50) -/

/-- Stepping through the issued events is performing them: no event looks at the list. -/
theorem stepMany_issued (es : List HostEvent) (s : State) :
    stepMany es.length (s.setHost es) = performAll es (s.setHost []) := by
  induction es generalizing s with
  | nil => rfl
  | cons e es ih =>
    have hstep : step (s.setHost (e :: es)) = mapNext (State.setHost · es) (s.hostEvent e) := s.hostEvent_setHost e es
    rw [List.length_cons, stepMany, performAll, hstep, s.hostEvent_setHost e []]
    cases s.hostEvent e with
    | next t => exact ih t
    | fault f => rfl
    | refused r => rfl

/-- The grid the host reckons with when it issues a line is the grid the line finds. -/
theorem gridAtTurn_of_performAll {es : List HostEvent} (h : performAll es (s.setHost []) = .next t) :
    (s.setHost es).gridAtTurn = (t.w, t.h) := (performAll_grid h).symm

/-- A line is issued by putting its transactions after those issued before it. -/
theorem issueProgram_cons (s : State) (es : List HostEvent) (l : HostLine) (ls : List HostLine) :
    (s.setHost es).issueProgram (l :: ls) =
      (s.setHost (es ++ l.events (s.setHost es).gridAtTurn.1 (s.setHost es).gridAtTurn.2)).issueProgram ls := rfl

/-- Settles O58, by induction on the lines: the first line's transactions join the events issued before it. -/
theorem issuedProgramRunsTopToBottom : Obligations.IssuedProgramRunsTopToBottom := fun s es ls => by
  induction ls generalizing es with
  | nil =>
    refine (stepMany_issued es s).trans ?_
    cases performAll es (s.setHost []) <;> rfl
  | cons l ls ih =>
    rw [issueProgram_cons, ih, performAll_append]
    cases hes : performAll es (s.setHost []) with
    | next t => rw [gridAtTurn_of_performAll hes]; rfl
    | fault f => rfl
    | refused r => rfl

end Sys2Proof.Machine
end

section
/-! SUPPORT. Proofs, family 40_scrambler.md: what SCRAMBLE and its alias leave in `OUT`, and that a second run undoes the
first. -/

namespace Sys2Proof.Machine

/-! ### The scrambled bytes (40_scrambler.md R81) -/

theorem State.scrambleBody_readOut (s : State) {k : Nat} (hk : k < s.msgLen) :
    s.scrambleBody.readOut k = s.readMsg k ^^^ s.keyByte k := by
  rw [State.readOut, State.scrambleBody_out, Memory.read_fresh, scrambleWith_getElem?, s.message_getElem? hk,
    Option.map_some, Option.getD_some]

/-- Settles O26: both names have the one answer, and what that does not build in `OUT` it leaves. -/
theorem scrambleFillsOut : Obligations.ScrambleFillsOut := by
  refine ⟨decode_encode .scramble, fun i s hi => ⟨fun hk => ?_, fun hk => ?_⟩⟩
  · exact Answers.exec (.emptyPassword (by rcases hi with rfl | rfl <;> decide) hk)
  · have hrun : exec i s = .next s.scrambleBody.complete := Answers.exec (.scramble hi hk)
    exact ⟨_, hrun, fun k hlt => s.scrambleBody_readOut hlt, rfl, rfl, commandsKeepInputs _ _ _ hrun, rfl, rfl, rfl,
      State.sameBitstream_complete rfl rfl, rfl⟩

/-! ### The alias (40_scrambler.md R83) -/

/-- Settles O27: the two commands have one word and one answer, and the decoder is defined by `scrambleWith`. -/
theorem unscrambleIsScramble : Obligations.UnscrambleIsScramble :=
  ⟨rfl, (encode_core .unscramble).symm, fun s => (exec_unscramble s).trans (exec_scramble s).symm, fun _ _ => rfl⟩

/-! ### Scrambling twice (40_scrambler.md R82) -/

/-- SCRAMBLE on a message that holds the scrambled bytes of `s`, under the password of `s`, yields the message of `s`. -/
theorem State.scrambleBody_readOut_of_scrambled {s t : State} {k : Nat} (hkey : t.keyByte = s.keyByte)
    (hk : k < t.msgLen) (hmsg : t.readMsg k = s.readMsg k ^^^ s.keyByte k) : t.scrambleBody.readOut k = s.readMsg k := by
  rw [t.scrambleBody_readOut hk, hmsg, hkey, BitVec.xor_assoc, BitVec.xor_self, BitVec.xor_zero]

/-- Settles O28: between the two runs the password stays, so each byte meets the same key byte twice. -/
theorem scrambleInvolution : Obligations.ScrambleInvolution := by
  refine ⟨scrambleWith_twice, fun s hk => ⟨_, exec_scramble_ok hk, fun m hcopy => ⟨_, exec_scramble_ok hk, rfl, ?_⟩⟩⟩
  intro k hlt
  have hmsg : (s.scrambleBody.complete.setMsg m).readMsg k = s.readMsg k ^^^ s.keyByte k :=
    (hcopy k hlt).trans (s.scrambleBody_readOut hlt)
  exact State.scrambleBody_readOut_of_scrambled (State.keyByte_congr rfl rfl) hlt hmsg

end Sys2Proof.Machine
end

section
/-! SUPPORT. Proofs, family 41_codec.md: the stream ENCODE leaves in `BITS`, where the terminator pattern can stand in
it, what DECODE recovers from a bitstream, and the two commands one after the other. -/

namespace Sys2Proof.Machine

variable {keyAt : Nat → Byte} {message : List Byte}

/-! ### ENCODE (41_codec.md R91) -/

theorem State.encode_readBits (s : State) {k : Nat} (hk : k < 8 * (s.msgLen + 3)) :
    s.encodeBody.complete.readBits k = s.streamBit k :=
  (s.encodeBody.complete_readBits hk).trans (s.encodeBody_readBits hk)

theorem State.streamBit_payload (s : State) {i j : Nat} (hi : i < s.msgLen) (hj : j < 8) :
    s.streamBit (8 * i + j) = (s.readMsg i ^^^ s.readKey (i % s.keyLen)).getLsbD (7 - j) := by
  have hbyte : (8 * i + j) / 8 = i := by omega
  have hbit : (8 * i + j) % 8 = j := by omega
  rw [State.streamBit, if_pos (by omega), hbyte, hbit]

/-- The bits of the terminator's bytes are 22 zeros and two ones (30_encoding.md R61). -/
theorem termBytes_getLsbD :
    ∀ r < 3, ∀ j < 8, ((termBytes[r]?).getD 0#8).getLsbD (7 - j) = decide (22 ≤ 8 * r + j) := by decide

theorem State.streamBit_terminator (s : State) {r j : Nat} (hr : r < 3) (hj : j < 8) :
    s.streamBit (8 * (s.msgLen + r) + j) = ((termBytes[r]?).getD 0#8).getLsbD (7 - j) := by
  rw [State.streamBit, if_neg (by omega), termBytes_getLsbD r hr j hj, decide_eq_decide]
  omega

/-- Settles O30: the bits of `BITS` are those of the layout of R60, payload and terminator. -/
theorem encodeBuildsStream : Obligations.EncodeBuildsStream := by
  refine ⟨decode_encode .encode, fun s => ⟨exec_keyed_empty (by decide), fun hk => ?_⟩⟩
  have hrun := exec_encode_ok hk
  refine ⟨_, hrun, fun i j hi hj => ?_, fun r j hr hj => ?_, rfl, rfl, rfl, commandsKeepInputs _ _ _ hrun, rfl, rfl,
    rfl, rfl⟩
  · rw [s.encode_readBits (by omega), s.streamBit_payload hi hj]
  · rw [s.encode_readBits (by omega), s.streamBit_terminator hr hj]

/-! ### Where the terminator pattern can stand in an encoded stream (41_codec.md R92) -/

/-- The pattern does not overlap itself: none of its proper suffixes is one of its prefixes. -/
theorem termPattern_unbordered : ∀ d < 24, 0 < d → termPattern.drop d ≠ termPattern.take (24 - d) := by decide

/-- An occurrence that begins before the final pattern ends before it. -/
theorem TermIn.before_terminator {payload : List Bit} {q : Nat} (h : TermIn (payload ++ termPattern) q)
    (hq : q < payload.length) : q + 24 ≤ payload.length := by
  by_contra hover
  obtain ⟨d, hd⟩ : ∃ d, payload.length = q + d := Nat.exists_eq_add_of_le hq.le
  have hdrop : (payload.drop q).length = d := by rw [List.length_drop]; omega
  have hpat : payload.drop q ++ termPattern.take (24 - d) = termPattern := by
    obtain ⟨-, hat⟩ := h
    rwa [List.drop_append_of_le_length hq.le, List.take_append, hdrop, List.take_of_length_le (by omega)] at hat
  refine termPattern_unbordered d (by omega) (by omega) ?_
  calc termPattern.drop d = (payload.drop q ++ termPattern.take (24 - d)).drop d := by rw [hpat]
    _ = termPattern.take (24 - d) := List.drop_left' hdrop

theorem termIn_encodeStream_terminator (keyAt : Nat → Byte) (message : List Byte) :
    TermIn (encodeStream keyAt message) (8 * message.length) := by
  rw [encodeStream_eq, termIn_iff_prefix, List.drop_left' (by simp)]

/-- An occurrence before the stream's own terminator lies within the payload. -/
theorem TermIn.within_payload {q : Nat} (h : TermIn (encodeStream keyAt message) q) (hq : q < 8 * message.length) :
    q + 24 ≤ 8 * message.length := by
  rw [encodeStream_eq] at h
  simpa using h.before_terminator (by simpa using hq)

/-- Within the payload, the stream holds the pattern where the scrambled bytes do. -/
theorem termIn_encodeStream_iff {q : Nat} (hq : q + 24 ≤ 8 * message.length) :
    TermIn (encodeStream keyAt message) q ↔ TermIn (bitsOfBytes (scrambleWith keyAt message)) q := by
  rw [encodeStream_eq]
  exact termIn_append (by simpa using hq)

theorem exists_termIn_payload_iff : (∃ q, q < 8 * message.length ∧ TermIn (encodeStream keyAt message) q) ↔
    ∃ q, TermIn (bitsOfBytes (scrambleWith keyAt message)) q := by
  constructor
  · rintro ⟨q, hq, h⟩
    exact ⟨q, (termIn_encodeStream_iff (h.within_payload hq)).1 h⟩
  · rintro ⟨q, h⟩
    have ⟨hlen, _⟩ := h
    have hq : q + 24 ≤ 8 * message.length := by simpa using hlen
    exact ⟨q, by omega, (termIn_encodeStream_iff hq).2 h⟩

/-- Where the pattern stands, a search finds it or an earlier one. -/
theorem TermIn.findTerm_le {l : List Bit} {q : Nat} (h : TermIn l q) : ∃ p, findTerm l = some p ∧ p ≤ q := by
  cases hf : findTerm l with
  | none => exact absurd h (findTerm_none hf q)
  | some p => exact ⟨p, rfl, Nat.not_lt.1 fun hlt => (findTerm_some hf).2 q hlt h⟩

/-- Settles O31: the pattern does not overlap itself, so an earlier occurrence lies wholly within the payload. -/
theorem encodedStreamFacts : Obligations.EncodedStreamFacts := by
  intro keyAt message
  have hterm := termIn_encodeStream_terminator keyAt message
  obtain ⟨p, hp, hle⟩ := hterm.findTerm_le
  refine ⟨encodeStream_length keyAt message, hterm, ⟨p, hp, hle⟩, fun q hq h => ?_, exists_termIn_payload_iff,
    fun tail => (findTerm_append hp tail).trans hp.symm⟩
  have hq' := h.within_payload hq
  exact ⟨hq', by omega⟩

/-! ### DECODE (41_codec.md R96) -/

/-- Settles O32: DECODE cuts and regroups the bits that are read from `BITS`. -/
theorem decodeCutsAndUnscrambles : Obligations.DecodeCutsAndUnscrambles := by
  refine ⟨decode_encode .decode, fun s => ⟨exec_keyed_empty (by decide), fun hk => ?_⟩⟩
  have hrun := exec_decode_ok hk
  exact ⟨_, hrun, s.decodeBody_cut fun _ _ => rfl, rfl, fun i hi => s.decodeBody_readOut (fun _ _ => rfl) hi, rfl, rfl,
    rfl, commandsKeepInputs _ _ _ hrun, rfl, State.sameBitstream_complete rfl rfl, rfl⟩

/-! ### Encode, then decode (41_codec.md R99, R100) -/

/-- A stream cut right before its terminator decodes to the message it was encoded from. -/
theorem decodeStream_encodeStream_append {tail : List Bit}
    (hcut : cutIndex (encodeStream keyAt message ++ tail) = 8 * message.length) :
    decodeStream keyAt (encodeStream keyAt message ++ tail) = message := by
  rw [decodeStream, hcut, encodeStream_eq, List.append_assoc, List.take_left' (by simp), bytesOfBits_bitsOfBytes,
    scrambleWith_twice]

/-- Settles O33: a tail does not move the first terminator, so the cut leaves the payload. -/
theorem codecRoundTrip : Obligations.CodecRoundTrip := by
  intro keyAt message tail h
  have hfind := findTerm_append h tail
  have hcut : cutIndex (encodeStream keyAt message ++ tail) = 8 * message.length := by
    rw [cutIndex, hfind, Option.getD_some]
  exact ⟨decodeStream_encodeStream_append hcut, hcut, by rw [hfind, Option.isSome_some]⟩

theorem TermOn.mono {bit : Nat → Bit} {n n' q : Nat} (h : TermOn bit n q) (hn : n ≤ n') : TermOn bit n' q :=
  h.imp_left fun hq => hq.trans hn

/-- Bits that hold the pattern are cut there or earlier. -/
theorem CutOn.of_termOn {bit : Nat → Bit} {n p q : Nat} {found : Bit} (hcut : CutOn bit n p found)
    (h : TermOn bit n q) : found = true ∧ p ≤ q := by
  rcases hcut with ⟨hfound, -, hfirst⟩ | ⟨-, -, hnone⟩
  · exact ⟨hfound, Nat.not_lt.1 fun hlt => hfirst q hlt h⟩
  · exact absurd h (hnone q)

/-- Settles O47: DECODE cuts at the payload's pattern or earlier, at least 24 bits before the payload ends. -/
theorem falseTerminatorCutsMessage : Obligations.FalseTerminatorCutsMessage := by
  intro s q hk hpat
  have hcut := s.encodeBody.complete.decodeBody_cut fun _ => s.encode_readBits
  obtain ⟨hfound, hle⟩ := hcut.of_termOn (hpat.mono (by simp))
  obtain ⟨hend, -⟩ := hpat
  have hlen : cutIndex s.encodeBody.complete.bitstream / 8 < s.msgLen := by omega
  exact ⟨_, _, exec_encode_ok hk, exec_decode_ok (s := s.encodeBody.complete) hk, rfl, hfound, hle, hlen⟩

end Sys2Proof.Machine
end

section
/-! SUPPORT. Proofs, family 42_pixel_channel.md: the laws of one pixel's blue LSB, what WRBIT and RDBIT leave, and one
after the other. -/

namespace Sys2Proof.Machine

/-! ### One pixel (42_pixel_channel.md R110, R113, R114) -/

/-- Settles O34: the laws of `writeBit`; the bit read is the blue LSB, and writing that LSB is no change. -/
theorem pixelBitLaws : Obligations.PixelBitLaws := fun p a b =>
  ⟨writeBit_r p b, writeBit_g p b, writeBit_upper p b, writeBit_lsb p b, readBit_writeBit p b, writeBit_twice p a b,
    by rw [readBit_eq, writeBit_lsb_self]⟩

theorem zextBit_eq_setWidth (b : Bit) : zextBit b = (BitVec.ofBool b).setWidth 8 := by
  cases b <;> rfl

theorem writeBit_eq_setWidth (p : Pixel) (b : Bit) :
    writeBit p b = { r := p.r, g := p.g, b := (p.b &&& 0xFE#8) ||| (BitVec.ofBool b).setWidth 8 } := by
  rw [writeBit, zextBit_eq_setWidth]

/-! ### WRBIT (42_pixel_channel.md R111) -/

theorem State.readPix_setPix_writePixelBit_same (s : State) (x y : Nat) (b : Bit) :
    (s.setPix (writePixelBit s.pix (pixKey x y) b)).readPix x y = writeBit (s.readPix x y) b :=
  read_writePixelBit_same s.pix (pixKey x y) b

/-- Different coordinate pairs have different cells. -/
theorem State.readPix_setPix_writePixelBit_other (s : State) {x y x' y' : Nat} (b : Bit) (h : ¬(x' = x ∧ y' = y)) :
    (s.setPix (writePixelBit s.pix (pixKey x y) b)).readPix x' y' = s.readPix x' y' :=
  read_writePixelBit_other s.pix b (pixKey_inj.not.2 h)

theorem not_in_grid_of_ge {s : State} (h : s.px ≥ s.w ∨ s.py ≥ s.h) : ¬(s.px < s.w ∧ s.py < s.h) := by omega

/-- Settles O35: in the grid, one cell of `PIX` is rewritten, and completing the command touches `BITS` and `ERR` only. -/
theorem wrbitWritesOneBlueBit : Obligations.WrbitWritesOneBlueBit := by
  refine ⟨decode_encode (.wrbit false), decode_encode (.wrbit true), fun b s =>
    ⟨fun hout => exec_wrbit_out b (not_in_grid_of_ge hout), fun hx hy => ?_⟩⟩
  have hrun := exec_wrbit_ok b ⟨hx, hy⟩
  exact ⟨_, hrun, (s.readPix_setPix_writePixelBit_same s.px s.py b).trans (writeBit_eq_setWidth _ b),
    fun _ _ hne => s.readPix_setPix_writePixelBit_other b hne, rfl, commandsKeepInputs _ _ _ hrun, rfl, rfl, rfl, rfl,
    State.sameBitstream_complete rfl rfl, rfl⟩

/-! ### RDBIT (42_pixel_channel.md R112) -/

/-- Settles O36: in the grid, `RB` takes the bit, and completing the command touches `BITS` and `ERR` only. -/
theorem rdbitReadsBlueLsb : Obligations.RdbitReadsBlueLsb :=
  ⟨decode_encode .rdbit, fun _ =>
    ⟨fun hout => exec_rdbit_out (not_in_grid_of_ge hout), fun hx hy =>
      ⟨_, exec_rdbit_ok ⟨hx, hy⟩, State.sameBitstream_complete rfl rfl, rfl⟩⟩⟩

/-! ### WRBIT, then RDBIT (42_pixel_channel.md R114) -/

/-- Settles O37: WRBIT leaves `PX`, `PY`, `W` and `H`, so RDBIT reads the pixel just written. -/
theorem rdbitAfterWrbit : Obligations.RdbitAfterWrbit := by
  intro b s hx hy
  refine ⟨_, _, exec_wrbit_ok b ⟨hx, hy⟩, exec_rdbit_ok ⟨hx, hy⟩, ?_, rfl, rfl⟩
  calc ((s.setPix (writePixelBit s.pix (pixKey s.px s.py) b)).readPix s.px s.py).b.getLsbD 0
    _ = (writeBit (s.readPix s.px s.py) b).b.getLsbD 0 := by rw [s.readPix_setPix_writePixelBit_same]
    _ = b := writeBit_lsb _ b

end Sys2Proof.Machine
end

section
/-! SUPPORT. Proofs, family 43_engine.md: what EMBED leaves in the grid, what EXTRACT leaves in `BITS`, the two commands
one after the other, and the nested loops of their pseudocodes. -/

namespace Sys2Proof.Machine

/-! ### EMBED (43_engine.md R121 to R123) -/

/-- Settles O38: EMBED's loop meets the pixel of each bit once, and completing the command touches `BITS` and `ERR`
only. -/
theorem embedWritesRowMajor : Obligations.EmbedWritesRowMajor :=
  ⟨decode_encode .embed, fun s =>
    ⟨_, exec_embed s, rfl, fun _ hk => s.embedBody_pixelOfBit hk, fun _ _ hout => s.read_embedGrid_outside hout, rfl,
      commandsKeepInputs _ _ _ (exec_embed s), rfl, rfl, rfl, State.sameBitstream_complete rfl rfl, rfl⟩⟩

/-! ### EXTRACT (43_engine.md R124) -/

theorem State.extract_readBits (s : State) {k : Nat} (hk : k < s.w * s.h) :
    s.extractBody.complete.readBits k = s.gridBit k :=
  (s.extractBody.complete_readBits hk).trans (s.extractBody_readBits hk)

/-- Settles O40: EXTRACT builds the stream of the grid's bits, and completing the command leaves it there. -/
theorem extractReadsRowMajor : Obligations.ExtractReadsRowMajor :=
  ⟨decode_encode .extract, fun s =>
    ⟨_, exec_extract s, rfl, rfl, fun _ hk => s.extract_readBits hk, rfl, commandsKeepInputs _ _ _ (exec_extract s), rfl,
      rfl, rfl, rfl⟩⟩

/-! ### EMBED and EXTRACT, one after the other (43_engine.md R125) -/

/-- The blue LSBs after EMBED: the bits of the stream, then those the grid had. -/
theorem State.embedBody_gridBit (s : State) (k : Nat) :
    s.embedBody.gridBit k = if k < s.embedCount then s.readBits k else s.gridBit k := by
  split
  · next hk => rw [State.gridBit, s.embedBody_pixelOfBit hk, writeBit_lsb]
  · next hk =>
    have hmiss : s.embedBody.pixelOfBit k = s.pixelOfBit k :=
      s.read_embedGrid_miss fun j hj he => hk (s.bitPixKey_inj.1 he ▸ hj)
    rw [State.gridBit, hmiss, State.gridBit]

/-- The grid holds the stream as far as EMBED would write it. -/
def State.HoldsStream (s : State) : Prop := ∀ k, k < s.embedCount → s.readBits k = s.gridBit k

/-- EMBED changes no pixel of a grid that already holds the stream. -/
theorem State.HoldsStream.embed_readPix {s : State} (h : s.HoldsStream) (x y : Nat) :
    s.embedBody.complete.readPix x y = s.readPix x y := by
  rcases s.read_embedGrid_cases (pixKey x y) with ⟨k, hk, hkey, hit⟩ | hmiss
  · have hpix : s.readPix x y = s.pixelOfBit k := by rw [State.readPix, hkey, State.pixelOfBit_eq]
    calc s.embedBody.complete.readPix x y
      _ = writeBit (s.readPix x y) (s.readBits k) := hit
      _ = writeBit (s.pixelOfBit k) (s.gridBit k) := by rw [hpix, h k hk]
      _ = s.pixelOfBit k := writeBit_lsb_self _
      _ = s.readPix x y := hpix.symm
  · exact hmiss

theorem State.embed_holdsStream (s : State) : s.embedBody.complete.HoldsStream := fun k hk => by
  have hk : k < s.embedCount := hk
  calc s.embedBody.complete.readBits k
    _ = s.readBits k := s.embedBody.complete_readBits (lt_of_lt_of_le hk (Nat.min_le_left _ _))
    _ = s.embedBody.gridBit k := by rw [s.embedBody_gridBit, if_pos hk]
    _ = s.embedBody.complete.gridBit k := rfl

theorem State.extract_holdsStream (s : State) : s.extractBody.complete.HoldsStream := fun k hk => by
  calc s.extractBody.complete.readBits k
    _ = s.gridBit k := s.extract_readBits (lt_of_lt_of_le hk (Nat.min_le_right _ _))
    _ = s.extractBody.complete.gridBit k := rfl

/-- Settles O41: EXTRACT reads the blue LSBs EMBED left, and both after EXTRACT and after EMBED the grid already holds
the stream. -/
theorem extractAfterEmbed : Obligations.ExtractAfterEmbed := by
  refine ⟨fun s => ⟨_, _, exec_embed s, exec_extract _, rfl, fun k hk => ?_⟩,
    fun s => ⟨_, _, exec_extract s, exec_embed _, fun x y => ?_⟩,
    fun s => ⟨_, _, exec_embed s, exec_embed _, s.embed_holdsStream.embed_readPix⟩⟩
  · calc s.embedBody.complete.extractBody.complete.readBits k
      _ = s.embedBody.complete.gridBit k := s.embedBody.complete.extract_readBits hk
      _ = s.embedBody.gridBit k := rfl
      _ = if k < min s.bitLen (s.w * s.h) then s.readBits k else s.gridBit k := s.embedBody_gridBit k
  · calc s.extractBody.complete.embedBody.complete.readPix x y
      _ = s.extractBody.complete.readPix x y := s.extract_holdsStream.embed_readPix x y
      _ = s.readPix x y := rfl

/-! ### The nested loops (43_engine.md R121, R124) -/

/-- A loop over `0, …, n - 1` runs through the values `P 0, …, P n` when each round leads from one to the next. -/
theorem foldl_range_of_step {β : Type} {f : β → Nat → β} {P : Nat → β} {n : Nat}
    (h : ∀ k, k < n → f (P k) k = P (k + 1)) : (List.range n).foldl f (P 0) = P n := by
  induction n with
  | zero => rfl
  | succ n ih =>
    rw [List.range_succ, List.foldl_append, ih fun k hk => h k (by omega)]
    exact h n (by omega)

/-- Cursor and grid once the first `n` pixels in row-major order have been visited. -/
def State.embedAfter (s : State) (n : Nat) : Nat × Memory Pixel :=
  (min s.bitLen n,
    (List.range (min s.bitLen n)).foldl (fun m k => writePixelBit m (s.bitPixKey k) (s.readBits k)) s.pix)

theorem State.embedAfter_zero (s : State) : s.embedAfter 0 = (0, s.pix) := by
  simp [State.embedAfter]

theorem State.embedAfter_gridSize (s : State) :
    s.embedAfter (s.h * s.w) = (min s.bitLen (s.w * s.h), s.embedGrid) := by
  rw [Nat.mul_comm]; rfl

/-- One visit: as long as the stream lasts the cursor is the number of the pixel visited; then nothing more is done. -/
theorem State.embedVisit_embedAfter (s : State) {x : Nat} (y : Nat) (hx : x < s.w) :
    s.embedVisit y (s.embedAfter (y * s.w + x)) x = s.embedAfter (y * s.w + x + 1) := by
  by_cases hk : y * s.w + x < s.bitLen
  · have hcursor : min s.bitLen (y * s.w + x) = y * s.w + x := by omega
    have hnext : min s.bitLen (y * s.w + x + 1) = y * s.w + x + 1 := by omega
    simp only [State.embedVisit, State.embedAfter, hcursor, hnext, if_pos hk, s.pixKey_rowMajor hx, List.range_succ,
      List.foldl_append, List.foldl_cons, List.foldl_nil]
  · have hcursor : min s.bitLen (y * s.w + x) = s.bitLen := by omega
    have hnext : min s.bitLen (y * s.w + x + 1) = s.bitLen := by omega
    simp [State.embedVisit, State.embedAfter, hcursor, hnext]

/-- One row. -/
theorem State.embedRow_embedAfter (s : State) (y : Nat) :
    (List.range s.w).foldl (s.embedVisit y) (s.embedAfter (y * s.w)) = s.embedAfter ((y + 1) * s.w) := by
  rw [Nat.succ_mul]
  exact foldl_range_of_step (P := fun x => s.embedAfter (y * s.w + x)) fun _ hx => s.embedVisit_embedAfter y hx

theorem State.embedLoops_eq (s : State) : s.embedLoops = (min s.bitLen (s.w * s.h), s.embedGrid) := by
  rw [← s.embedAfter_gridSize, State.embedLoops, ← s.embedAfter_zero, ← Nat.zero_mul s.w]
  exact foldl_range_of_step (P := fun y => s.embedAfter (y * s.w)) fun y _ => s.embedRow_embedAfter y

/-- Counting row by row is counting along. -/
theorem flatMap_rows_eq_map {β : Type} (f : Nat → β) (w n : Nat) :
    ((List.range n).flatMap fun y => (List.range w).map fun x => f (y * w + x)) = (List.range (n * w)).map f := by
  induction n with
  | zero => simp
  | succ n ih => simp [List.range_succ, ih, Nat.succ_mul, List.range_add, Function.comp_def]

theorem State.extractLoops_eq (s : State) : s.extractLoops = s.extractStream := by
  have hrow : ∀ y, ((List.range s.w).map fun x => readBit (s.readPix x y)) =
      (List.range s.w).map fun x => readBit (s.pix.read Config.freePix (s.bitPixKey (y * s.w + x))) := fun y =>
    List.map_congr_left fun x hx => by rw [State.readPix, s.pixKey_rowMajor (List.mem_range.1 hx)]
  rw [State.extractLoops, State.extractStream, State.gridSize, Nat.mul_comm, ← flatMap_rows_eq_map]
  simp only [hrow]

/-- Settles O39: in row `y` and column `x` the loops visit the pixel of bit `y × W + x`. -/
theorem loopsAreRowMajor : Obligations.LoopsAreRowMajor := ⟨State.embedLoops_eq, State.extractLoops_eq⟩

end Sys2Proof.Machine
end

section
/-! SUPPORT. Proofs, family 44_capacity.md: what CAPCHK leaves, and the laws of the comparison it makes. -/

namespace Sys2Proof.Machine

/-! ### CAPCHK (44_capacity.md R132) -/

/-- Settles O42: CAPCHK's body writes `CAP` alone, and completing the command touches `BITS` and `ERR` only. -/
theorem capchkComparesSquare : Obligations.CapchkComparesSquare :=
  ⟨decode_encode .capchk, fun s => ⟨_, exec_capchk s, State.sameBitstream_complete rfl rfl, rfl⟩⟩

/-! ### The comparison (44_capacity.md R133) -/

/-- A wider grid holds a shorter message if the narrower grid holds the longer one. -/
theorem hasCapacity_mono {w w' n n' : Nat} (hw : w ≤ w') (hn : n' ≤ n) (h : hasCapacity w n = true) :
    hasCapacity w' n' = true :=
  hasCapacity_iff.2 <| calc (n' + 3) * 8
    _ ≤ (n + 3) * 8 := Nat.mul_le_mul_right 8 (Nat.add_le_add_right hn 3)
    _ ≤ w * w := hasCapacity_iff.1 h
    _ ≤ w' * w' := Nat.mul_le_mul hw hw

/-- `CAP` after CAPCHK is the comparison of `W` and `MSG_LEN`. -/
theorem exec_capchk_cap (s : State) : ∃ t, exec .capchk s = .next t ∧ t.flags.cap = hasCapacity s.w s.msgLen :=
  ⟨_, exec_capchk s, rfl⟩

/-- Settles O43: equality passes the comparison, the comparison is monotone, and the three inputs are compared. -/
theorem capacityBoundary : Obligations.CapacityBoundary := by
  refine ⟨fun s heq => ?_, fun s s' hw hn => ?_, fun s => ?_⟩
  · obtain ⟨t, hrun, hcap⟩ := exec_capchk_cap s
    exact ⟨t, hrun, hcap.trans (hasCapacity_iff.2 heq.ge)⟩
  · obtain ⟨t, hrun, hcap⟩ := exec_capchk_cap s
    obtain ⟨t', hrun', hcap'⟩ := exec_capchk_cap s'
    refine ⟨t, t', hrun, hrun', ?_⟩
    rw [hcap, hcap']
    exact hasCapacity_mono hw hn
  · obtain ⟨t, hrun, hcap⟩ := exec_capchk_cap s
    have h85 : hasCapacity 8 5 = true := by decide
    have h86 : hasCapacity 8 6 = false := by decide
    have h75 : hasCapacity 7 5 = false := by decide
    refine ⟨t, hrun, fun ⟨hw, hn⟩ => ?_, fun ⟨hw, hn⟩ => ?_, fun ⟨hw, hn⟩ => ?_⟩
    · rw [hcap, hw, hn, h85]
    · rw [hcap, hw, hn, h86]
    · rw [hcap, hw, hn, h75]

end Sys2Proof.Machine
end

section
/-! SUPPORT. Proofs, family 45_pipeline.md: what HIDE leaves in the grid, what SHOW recovers from it, the two commands
one after the other, and each against the primitive commands it is composed of. -/

namespace Sys2Proof.Machine

/-! ### HIDE (45_pipeline.md R141) -/

/-- HIDE puts bit `k` of the encoded message into the pixel of bit `k`. -/
theorem State.encodeBody_embedBody_pixelOfBit (s : State) {k : Nat} (hk : k < s.encodeBody.embedCount) :
    s.encodeBody.embedBody.pixelOfBit k = writeBit (s.pixelOfBit k) (s.streamBit k) := by
  have hstream : k < 8 * (s.msgLen + 3) := lt_of_lt_of_le hk (Nat.min_le_left _ _)
  calc s.encodeBody.embedBody.pixelOfBit k
    _ = writeBit (s.encodeBody.pixelOfBit k) (s.encodeBody.readBits k) := s.encodeBody.embedBody_pixelOfBit hk
    _ = writeBit (s.pixelOfBit k) (s.streamBit k) := congrArg (writeBit _) (s.encodeBody_readBits hstream)

/-- Settles O44: with both checks passed, EMBED's body runs on the stream ENCODE's body built, and neither body writes
another input or result. -/
theorem hideEmbedsEncodedMessage : Obligations.HideEmbedsEncodedMessage := by
  refine ⟨decode_encode .hide, fun s => ⟨exec_keyed_empty (by decide), fun hk hsmall => ?_, fun hk hfits => ?_⟩⟩
  · exact exec_hide_capacity hk (hasCapacity_iff.not.2 (by omega))
  · have hrun := exec_hide_ok hk (hasCapacity_iff.2 hfits)
    exact ⟨_, hrun, rfl, fun _ hlt => s.encodeBody_embedBody_pixelOfBit hlt,
      fun _ _ hout => s.encodeBody.read_embedGrid_outside hout, rfl, rfl, commandsKeepInputs _ _ _ hrun, rfl, rfl, rfl⟩

/-! ### SHOW (45_pipeline.md R142) -/

/-- Settles O45: the bits DECODE's body reads are the blue LSBs EXTRACT's body has just put there. -/
theorem showDecodesGrid : Obligations.ShowDecodesGrid := by
  refine ⟨decode_encode .showCmd, fun s => ⟨exec_keyed_empty (by decide), fun hk => ?_⟩⟩
  have hrun := exec_showCmd_ok hk
  have hbits : ∀ k, k < s.extractBody.bitLen → s.extractBody.readBits k = s.gridBit k := fun _ => s.extractBody_readBits
  exact ⟨_, hrun, s.extractBody.decodeBody_cut hbits, rfl, fun _ hi => s.extractBody.decodeBody_readOut hbits hi, rfl,
    rfl, rfl, rfl, commandsKeepInputs _ _ _ hrun, rfl⟩

/-! ### HIDE, then SHOW (45_pipeline.md R144) -/

/-- The stream DECODE's body reads after EXTRACT's body is the extracted one. -/
theorem State.extractBody_bitstream (s : State) : s.extractBody.bitstream = s.extractStream :=
  List.map_congr_left fun _ hk => (s.extractBody_readBits (List.mem_range.1 hk)).trans (readBit_eq _).symm

/-- The payload's bits are those of the layout of R60. -/
theorem State.payload_getElem? (s : State) {k : Nat} (hk : k < 8 * s.msgLen) :
    (bitsOfBytes (scrambleWith s.keyByte s.message))[k]? = some (s.streamBit k) := by
  rw [← encodeStream_getElem? s (by omega), encodeStream_eq, List.getElem?_append_left (by simpa using hk)]

/-- Without the pattern in the payload, the first terminator of the encoded stream is its own. -/
theorem State.findTerm_encodeStream (s : State) (h : ∀ q, ¬TermOn s.streamBit (8 * s.msgLen) q) :
    findTerm (encodeStream s.keyByte s.message) = some (8 * s.message.length) := by
  refine findTerm_eq_some_iff.2 ⟨termIn_encodeStream_terminator _ _, fun q hq hterm => ?_⟩
  obtain ⟨q', hpayload⟩ := exists_termIn_payload_iff.1 ⟨q, hq, hterm⟩
  exact h q' ((termIn_iff_termOn (by simp) (fun _ => s.payload_getElem?) q').1 hpayload)

/-- A grid large enough for the whole stream holds it after HIDE, followed by the bits of the pixels left alone. -/
theorem State.encodeStream_prefix_extractStream (s : State) (hfits : 8 * (s.msgLen + 3) ≤ s.w * s.h) :
    encodeStream s.keyByte s.message <+: s.encodeBody.embedBody.extractStream := by
  have hlen : (encodeStream s.keyByte s.message).length = 8 * (s.msgLen + 3) := by
    rw [encodeStream_length, State.message_length]
  refine List.prefix_iff_getElem?.2 fun k hk => ?_
  rw [hlen] at hk
  have hcount : k < s.encodeBody.embedCount := lt_min hk (hk.trans_le hfits)
  calc s.encodeBody.embedBody.extractStream[k]?
    _ = some (s.encodeBody.embedBody.gridBit k) := s.encodeBody.embedBody.extractStream_getElem? (hk.trans_le hfits)
    _ = some (s.streamBit k) := by rw [s.encodeBody.embedBody_gridBit, if_pos hcount, s.encodeBody_readBits hk]
    _ = some (encodeStream s.keyByte s.message)[k] := by
      rw [← encodeStream_getElem? s hk, List.getElem?_eq_getElem]

/-- DECODE's body gives the message of `s` back from its encoded stream with a tail, under the password of `s`. -/
theorem State.decodeBody_of_encodeStream {s t : State} {tail : List Bit} (hkey : t.keyByte = s.keyByte)
    (hstream : t.bitstream = encodeStream s.keyByte s.message ++ tail)
    (hfind : findTerm (encodeStream s.keyByte s.message) = some (8 * s.message.length)) :
    t.decodeBody.flags.tf = true ∧ t.decodeBody.pos = 8 * s.msgLen ∧ t.decodeBody.outLen = s.msgLen ∧
      ∀ k, k < s.msgLen → t.decodeBody.readOut k = s.readMsg k := by
  obtain ⟨hmessage, hcut, hfound⟩ := codecRoundTrip s.keyByte s.message tail hfind
  rw [← hstream] at hmessage hcut hfound
  rw [s.message_length] at hcut
  refine ⟨hfound, hcut, ?_, fun k hk => ?_⟩
  · rw [State.decodeBody_outLen, hcut, Nat.mul_div_cancel_left _ (by decide)]
  · rw [State.readOut, State.decodeBody_out, hkey, hmessage, Memory.read_fresh, s.message_getElem? hk, Option.getD_some]

/-- Settles O46: the extracted stream is the encoded one with a tail, which decodes to the message whatever the tail. -/
theorem hideShowRoundTrip : Obligations.HideShowRoundTrip := by
  intro s hk hsquare hfits hpayload
  have hhide := exec_hide_ok hk (hasCapacity_iff.2 (by omega))
  have hshow := exec_showCmd_ok (s := s.encodeBody.embedBody.discardBits.complete) hk
  obtain ⟨tail, htail⟩ := s.encodeStream_prefix_extractStream hfits
  have hstream : s.encodeBody.embedBody.discardBits.complete.extractBody.bitstream =
      encodeStream s.keyByte s.message ++ tail := (State.extractBody_bitstream _).trans htail.symm
  have hkey : s.encodeBody.embedBody.discardBits.complete.extractBody.keyByte = s.keyByte := State.keyByte_congr rfl rfl
  obtain ⟨hfound, hpos, hlen, hout⟩ :=
    State.decodeBody_of_encodeStream hkey hstream (s.findTerm_encodeStream hpayload)
  exact ⟨_, _, hhide, hshow, rfl, hfound, hpos, hlen, hout⟩

/-! ### The primitive commands in sequence (45_pipeline.md R145) -/

/-- Whether ENCODE completes before EMBED's body runs makes no difference to it: the bitstream is there either way. -/
theorem State.complete_embedBody (s : State) : s.complete.embedBody = s.embedBody.complete := by
  have hgrid : s.complete.embedGrid = s.embedGrid :=
    State.embedGrid_congr rfl rfl rfl rfl fun _ => s.complete_readBits
  rw [State.embedBody, hgrid]
  rfl

/-- Nor, for EXTRACT, before DECODE's body runs. -/
theorem State.complete_decodeBody (s : State) : s.complete.decodeBody = s.decodeBody.complete := by
  have hstream : s.complete.bitstream = s.bitstream := State.bitstream_of_readBits rfl fun _ => s.complete_readBits
  rw [State.decodeBody, hstream]
  rfl

/-- Settles O48: completing the first command of a sequence commutes with the body of the second, so the sequence ends
as the pipeline does but for what the pipeline discards. -/
theorem pipelinesAreSequences : Obligations.PipelinesAreSequences := by
  refine ⟨fun s hk hfits => ?_, fun s hk => ?_⟩
  · have hembed : exec .embed s.encodeBody.complete = .next s.encodeBody.embedBody.complete.complete := by
      rw [exec_embed, State.complete_embedBody]
    exact ⟨_, _, _, exec_encode_ok hk, hembed, exec_hide_ok hk (hasCapacity_iff.2 hfits), rfl, rfl, rfl, rfl, rfl⟩
  · have hdecode : exec .decode s.extractBody.complete = .next s.extractBody.decodeBody.complete.complete := by
      rw [exec_decode_ok (s := s.extractBody.complete) hk, State.complete_decodeBody]
    exact ⟨_, _, _, exec_extract s, hdecode, exec_showCmd_ok hk, rfl, rfl, rfl, rfl, rfl, rfl, rfl⟩

end Sys2Proof.Machine
end

section
/-! SUPPORT. Proofs, family 49_common_laws.md: what each command does to `POS`, whatever it held. -/

namespace Sys2Proof.Machine

variable {s t : State} {i : Instr}

/-! ### POS (49_common_laws.md R183) -/

/-- A command either leaves `POS`, and is otherwise the same run from any other `POS`, or overwrites it, and is the same
run altogether: the cursor starts at 0 and its final value comes from the other fields. -/
theorem exec_setPos (h : exec i s = .next t) :
    (t.pos = s.pos ∧ ∀ p, exec i (s.setPos p) = .next (t.setPos p)) ∨ ∀ p, exec i (s.setPos p) = .next t := by
  cases exec_next h with
  | emptyPassword hi hk => exact .inl ⟨rfl, fun _ => Answers.exec (.emptyPassword hi hk)⟩
  | outOfRange hi hp => exact .inl ⟨rfl, fun _ => Answers.exec (.outOfRange hi hp)⟩
  | capacityExceeded hk hc => exact .inl ⟨rfl, fun _ => Answers.exec (.capacityExceeded hk hc)⟩
  | scramble hi hk => exact .inl ⟨rfl, fun _ => Answers.exec (.scramble hi hk)⟩
  | encode hk => exact .inr fun p => exec_encode_ok (s := s.setPos p) hk
  | decode hk => exact .inr fun p => exec_decode_ok (s := s.setPos p) hk
  | wrbit b hp => exact .inl ⟨rfl, fun _ => Answers.exec (.wrbit b hp)⟩
  | rdbit hp => exact .inl ⟨rfl, fun _ => Answers.exec (.rdbit hp)⟩
  | embed => exact .inr fun p => exec_embed (s.setPos p)
  | extract => exact .inr fun p => exec_extract (s.setPos p)
  | capchk => exact .inl ⟨rfl, fun _ => Answers.exec .capchk⟩
  | hide hk hc => exact .inr fun p => exec_hide_ok (s := s.setPos p) hk hc
  | showCmd hk => exact .inr fun p => exec_showCmd_ok (s := s.setPos p) hk

/-- Settles O19: where `POS` is left, each run ends with its own; where it is overwritten, both runs end in one state. -/
theorem posNeverRead : Obligations.PosNeverRead := fun i s p => by
  obtain ⟨t, ht⟩ := exec_answers i s
  rcases exec_setPos ht with ⟨hkept, hrun⟩ | hrun
  · exact ⟨t, t.setPos p, ht, hrun p, rfl, .inr ⟨hkept, rfl⟩⟩
  · exact ⟨t, t, ht, hrun p, rfl, .inl rfl⟩

end Sys2Proof.Machine
end

section
/-! SUPPORT. Proofs, family 60_exceptions.md: how a command that fails ends, which command raises which error, what a
reserved word does, and the numbers of the status registers. -/

namespace Sys2Proof

/-- The reserved words as 30_encoding.md R69 lists them. -/
abbrev ReservedWord (c : Byte) : Prop :=
  c.extractLsb' 0 4 = 0#4 ∨ c.extractLsb' 0 4 ≥ 11#4 ∨ (c.extractLsb' 0 4 ≠ 4#4 ∧ c.extractLsb' 4 4 ≠ 0#4) ∨
    (c.extractLsb' 0 4 = 4#4 ∧ c.extractLsb' 5 3 ≠ 0#3)

theorem encode_not_reserved (i : Instr) : ¬ReservedWord (encode i) := by
  cases i with
  | wrbit b => cases b <;> decide
  | _ => decide

/-- A reserved word decodes to no command, since every word that decodes is the word of its command. -/
theorem ReservedWord.decode_ne_ok {c : Byte} (h : ReservedWord c) (i : Instr) : decode c ≠ .ok i := fun hd => by
  obtain ⟨rfl, -⟩ := decode_eq_ok_iff.1 hd
  exact encode_not_reserved i h

end Sys2Proof

namespace Sys2Proof.Machine

variable {s t : State} {i : Instr} {c : Byte}

/-! ### A word that decodes to no command (60_exceptions.md R153) -/

theorem State.runCommand_of_not_decoded (h : ∀ i, decode c ≠ .ok i) (s : State) :
    s.runCommand c = .next (s.setErr .illegalCommand) := by
  unfold State.runCommand
  split
  case h_1 i hd => exact absurd hd (h i)
  case h_2 => rfl

/-- Settles O4: the next event is the command, and its word decodes to none. -/
theorem reservedWordRaisesIllegalCommand : Obligations.ReservedWordRaisesIllegalCommand :=
  ⟨rfl, fun s _ rest hhost hres =>
    (step_of_host hhost).trans ((s.setHost rest).runCommand_of_not_decoded (ReservedWord.decode_ne_ok hres))⟩

/-! ### A command that fails (60_exceptions.md R155) -/

/-- A command that leaves an error has written it and nothing else: one that completes leaves none. -/
theorem exec_failed (h : exec i s = .next t) (he : t.err ≠ .noError) : t = s.setErr t.err := by
  cases exec_ends h with
  | failed _ => rfl
  | kept _ _ _ => exact absurd rfl he
  | built _ _ _ _ => exact absurd rfl he

/-- Settles O12: a word either runs the command it decodes to or raises IllegalCommand. -/
theorem failingCommandWritesOnlyErr : Obligations.FailingCommandWritesOnlyErr := fun s t c h he => by
  unfold State.runCommand at h
  split at h
  case h_1 => exact exec_failed h he
  case h_2 => cases h; rfl

/-! ### Which command raises which error (60_exceptions.md R152, R154, R160) -/

/-- Settles O13: each answer carries the code of its error, under the conditions the matrix gives for it; every other
answer is of a completed command. -/
theorem errorMatrix : Obligations.ErrorMatrix := by
  refine ⟨fun i s => ?_, fun c s hc => ⟨_, s.runCommand_of_not_decoded hc, rfl⟩⟩
  obtain ⟨t, ht⟩ := exec_answers i s
  refine ⟨t, ht, ?_⟩
  cases exec_next ht with
  | emptyPassword hi hk =>
    simp only [List.mem_cons, List.not_mem_nil, or_false] at hi
    rcases hi with rfl | rfl | rfl | rfl | rfl | rfl <;> exact (if_pos hk).symm
  | outOfRange hi hp =>
    have hout : s.px ≥ s.w ∨ s.py ≥ s.h := by omega
    simp only [List.mem_cons, List.not_mem_nil, or_false] at hi
    rcases hi with rfl | rfl | rfl <;> exact (if_pos hout).symm
  | capacityExceeded hk hc =>
    have hsmall : s.w * s.w < (s.msgLen + 3) * 8 := Nat.lt_of_not_le fun h => by simp [hasCapacity_iff.2 h] at hc
    exact ((if_neg hk).trans (if_pos hsmall)).symm
  | scramble hi hk => rcases hi with rfl | rfl <;> exact (if_neg hk).symm
  | encode hk => exact (if_neg hk).symm
  | decode hk => exact (if_neg hk).symm
  | wrbit _ hp => exact (if_neg (by omega)).symm
  | rdbit hp => exact (if_neg (by omega)).symm
  | embed => rfl
  | extract => rfl
  | capchk => rfl
  | hide hk hc => exact ((if_neg hk).trans (if_neg (Nat.not_lt.2 (hasCapacity_iff.1 hc)))).symm
  | showCmd hk => exact (if_neg hk).symm

/-- Only a keyed command raises EmptyPassword. -/
theorem exec_emptyPassword_keyed (h : exec i s = .next t) (he : t.err = .emptyPassword) :
    i ∈ [.scramble, .unscramble, .encode, .decode, .hide, .showCmd] := by
  cases exec_next h with
  | emptyPassword hi _ => exact hi
  | _ => cases he

/-- Settles O14: the keyed commands begin with the check, and the other six are not keyed. -/
theorem emptyPasswordRejected : Obligations.EmptyPasswordRejected := by
  refine ⟨fun _ _ hi hk => exec_keyed_empty hi hk, fun i s t hi h he => ?_⟩
  have hkeyed := exec_emptyPassword_keyed h he
  simp only [List.mem_cons, List.not_mem_nil, or_false] at hi
  rcases hi with rfl | rfl | rfl | rfl | rfl | rfl <;> exact absurd hkeyed (by decide)

/-- Settles O15: a coordinate past an edge is the condition of the answer OutOfRange. -/
theorem outOfRangeRejected : Obligations.OutOfRangeRejected := fun _ _ hi hout =>
  Answers.exec (.outOfRange hi (not_in_grid_of_ge hout))

/-! ### The numbers of the status registers (60_exceptions.md R150, 10_state.md R15) -/

/-- The three flags are the three lowest bits of the number `FLAGS` reads as, and the rest are zero. -/
theorem Flags.toNat_bits (f : Flags) :
    f.toNat < 8 ∧ f.toNat.testBit 0 = f.cap ∧ f.toNat.testBit 1 = f.tf ∧ f.toNat.testBit 2 = f.rb := by
  obtain ⟨cap, tf, rb⟩ := f
  revert cap tf rb
  decide

/-- Settles O49: the codes are read off the table. -/
theorem statusNumbers : Obligations.StatusNumbers := ⟨⟨rfl, rfl, rfl, rfl, rfl, rfl, rfl⟩, Flags.toNat_bits⟩

end Sys2Proof.Machine
end

section
/-! SUPPORT. Proofs, family 70_reset_and_hazards.md: the idle block, the reset event, and the commands on a state whose
free values are drawn afresh. -/

namespace Sys2Proof.Machine

/-! ### No event, and the reset event (70_reset_and_hazards.md R170, R171) -/

/-- Settles O7: with no event there is nothing to perform. -/
theorem idleWithoutEvent : Obligations.IdleWithoutEvent := fun s h => by
  rw [step, State.nextEvent, h]

/-- Settles O9: the event resets the registers and leaves every memory without a cell. -/
theorem resetEventClearsBlock : Obligations.ResetEventClearsBlock := fun _ _ hhost =>
  ⟨_, step_of_host hhost, rfl, rfl, rfl, rfl, rfl, rfl, rfl, rfl, rfl, rfl, rfl, fun k =>
    ⟨Memory.not_written_of_empty rfl k, Memory.not_written_of_empty rfl k, Memory.not_written_of_empty rfl k,
      Memory.not_written_of_empty rfl k, Memory.not_written_of_empty rfl k⟩, rfl, rfl, rfl⟩

/-! ### What a command reads of written elements does not depend on the draws (70_reset_and_hazards.md R172) -/

variable {s : State} {d₁ d₂ d₃ d₄ d₅ : List Nat}

theorem State.PasswordWritten.keyLen_ne_zero (h : s.PasswordWritten) : s.keyLen ≠ 0 := Nat.ne_of_gt h.1

theorem State.MessageWritten.message_redraw (h : s.MessageWritten) :
    (s.redraw d₁ d₂ d₃ d₄ d₅).message = s.message :=
  List.map_congr_left fun i hi => Memory.read_of_written (h i (List.mem_range.1 hi)) _ _ d₁

theorem State.PasswordWritten.keyByte_redraw (h : s.PasswordWritten) :
    (s.redraw d₁ d₂ d₃ d₄ d₅).keyByte = s.keyByte := by
  obtain ⟨hlen, hwritten⟩ := h
  funext i
  exact Memory.read_of_written (hwritten _ (Nat.mod_lt i hlen)) _ _ d₂

theorem State.BitstreamWritten.readBits_redraw (h : s.BitstreamWritten) {k : Nat} (hk : k < s.bitLen) :
    (s.redraw d₁ d₂ d₃ d₄ d₅).readBits k = s.readBits k :=
  Memory.read_of_written (h k hk) _ _ d₃

theorem State.PixelsWritten.extractStream_redraw (h : s.PixelsWritten s.gridSize) :
    (s.redraw d₁ d₂ d₃ d₄ d₅).extractStream = s.extractStream :=
  List.map_congr_left fun k hk => congrArg readBit (Memory.read_of_written (h k (List.mem_range.1 hk)) _ _ d₅)

/-- Read-modify-writes of pixels that are all written meet no free value, since each leaves the others written. -/
theorem foldl_writePixelBit_forgotten (key : Nat → Nat) (bit : Nat → Bit) (d : List Nat) {ks : List Nat}
    {m : Memory Pixel} (h : ∀ k ∈ ks, m.Written (key k)) :
    ks.foldl (fun m k => writePixelBit m (key k) (bit k)) { m with forgotten := d } =
      { ks.foldl (fun m k => writePixelBit m (key k) (bit k)) m with forgotten := d } := by
  induction ks generalizing m with
  | nil => rfl
  | cons k ks ih =>
    obtain ⟨hk, hks⟩ := List.forall_mem_cons.1 h
    simp only [List.foldl_cons]
    rw [writePixelBit_forgotten hk]
    exact ih fun j hj => Memory.written_set.2 (.inr (hks j hj))

theorem State.embedGrid_redraw (hb : s.BitstreamWritten) (hp : s.PixelsWritten s.embedCount) :
    (s.redraw d₁ d₂ d₃ d₄ d₅).embedGrid = { s.embedGrid with forgotten := d₅ } :=
  calc (s.redraw d₁ d₂ d₃ d₄ d₅).embedGrid = (s.setPix { s.pix with forgotten := d₅ }).embedGrid :=
        State.embedGrid_congr rfl rfl rfl rfl fun _ => hb.readBits_redraw
    _ = { s.embedGrid with forgotten := d₅ } :=
        foldl_writePixelBit_forgotten s.bitPixKey s.readBits d₅ fun k hk => hp k (List.mem_range.1 hk)

/-! ### The bodies of the commands on other draws -/

theorem State.scrambleBody_redraw (hm : s.MessageWritten) (hk : s.PasswordWritten) :
    (s.redraw d₁ d₂ d₃ d₄ d₅).scrambleBody = s.scrambleBody.redraw d₁ d₂ d₃ (0 :: d₄) d₅ := by
  rw [State.scrambleBody, hm.message_redraw, hk.keyByte_redraw]
  rfl

theorem State.encodeBody_redraw (hm : s.MessageWritten) (hk : s.PasswordWritten) :
    (s.redraw d₁ d₂ d₃ d₄ d₅).encodeBody = s.encodeBody.redraw d₁ d₂ (0 :: d₃) d₄ d₅ := by
  rw [State.encodeBody, hm.message_redraw, hk.keyByte_redraw]
  rfl

theorem State.decodeBody_redraw (hb : s.BitstreamWritten) (hk : s.PasswordWritten) :
    (s.redraw d₁ d₂ d₃ d₄ d₅).decodeBody = s.decodeBody.redraw d₁ d₂ d₃ (0 :: d₄) d₅ := by
  have hstream : (s.redraw d₁ d₂ d₃ d₄ d₅).bitstream = s.bitstream :=
    State.bitstream_of_readBits rfl fun _ => hb.readBits_redraw
  rw [State.decodeBody, hstream, hk.keyByte_redraw]
  rfl

theorem State.embedBody_redraw (hb : s.BitstreamWritten) (hp : s.PixelsWritten s.embedCount) :
    (s.redraw d₁ d₂ d₃ d₄ d₅).embedBody = s.embedBody.redraw d₁ d₂ d₃ d₄ d₅ := by
  rw [State.embedBody, State.embedGrid_redraw hb hp]
  rfl

theorem State.extractBody_redraw (hp : s.PixelsWritten s.gridSize) :
    (s.redraw d₁ d₂ d₃ d₄ d₅).extractBody = s.extractBody.redraw d₁ d₂ (0 :: d₃) d₄ d₅ := by
  rw [State.extractBody, hp.extractStream_redraw]
  rfl

/-- ENCODE's body leaves a whole bitstream written, for EMBED's body to read (45_pipeline.md R141). -/
theorem State.encodeBody_bitstreamWritten (s : State) : s.encodeBody.BitstreamWritten := fun k hk =>
  Memory.written_fresh.2 (by rw [encodeStream_length, s.message_length]; exact hk)

/-- So does EXTRACT's, for DECODE's (45_pipeline.md R142). -/
theorem State.extractBody_bitstreamWritten (s : State) : s.extractBody.BitstreamWritten := fun k hk =>
  Memory.written_fresh.2 (by rw [s.extractStream_length]; exact hk)

theorem State.setPix_writePixelBit_redraw (hp : s.pix.Written (pixKey s.px s.py)) (b : Bit) :
    (s.redraw d₁ d₂ d₃ d₄ d₅).setPix (writePixelBit { s.pix with forgotten := d₅ } (pixKey s.px s.py) b) =
      (s.setPix (writePixelBit s.pix (pixKey s.px s.py) b)).redraw d₁ d₂ d₃ d₄ d₅ := by
  rw [writePixelBit_forgotten hp]
  rfl

theorem State.setFlags_readPix_redraw (hp : s.pix.Written (pixKey s.px s.py)) :
    (s.redraw d₁ d₂ d₃ d₄ d₅).setFlags
        (s.flags.withRb (((s.redraw d₁ d₂ d₃ d₄ d₅).readPix s.px s.py).b.getLsbD 0)) =
      (s.setFlags (s.flags.withRb ((s.readPix s.px s.py).b.getLsbD 0))).redraw d₁ d₂ d₃ d₄ d₅ := by
  have hpixel : (s.redraw d₁ d₂ d₃ d₄ d₅).readPix s.px s.py = s.readPix s.px s.py :=
    Memory.read_of_written hp _ _ d₅
  rw [hpixel]
  rfl

theorem State.hideBody_redraw (hm : s.MessageWritten) (hk : s.PasswordWritten)
    (hp : s.PixelsWritten s.encodeBody.embedCount) :
    (s.redraw d₁ d₂ d₃ d₄ d₅).encodeBody.embedBody.discardBits =
      s.encodeBody.embedBody.discardBits.redraw d₁ d₂ (0 :: d₃) d₄ d₅ := by
  rw [State.encodeBody_redraw hm hk, State.embedBody_redraw s.encodeBody_bitstreamWritten hp]
  rfl

theorem State.showBody_redraw (hp : s.PixelsWritten s.gridSize) (hk : s.PasswordWritten) :
    (s.redraw d₁ d₂ d₃ d₄ d₅).extractBody.decodeBody.discardBits =
      s.extractBody.decodeBody.discardBits.redraw d₁ d₂ (0 :: d₃) (0 :: d₄) d₅ := by
  rw [State.extractBody_redraw hp, State.decodeBody_redraw s.extractBody_bitstreamWritten hk]
  rfl

/-- A state with other draws completes with other draws. -/
theorem State.complete_redraw_of_eq {u : State} (h : u = s.redraw d₁ d₂ d₃ d₄ d₅) :
    u.complete.redraw [] [] [] [] [] = s.complete.redraw [] [] [] [] [] := by
  rw [h]
  rfl

/-! ### The commands on other draws (70_reset_and_hazards.md R172) -/

/-- Settles O25: with every input written, each check and each body comes out the same on the other draws. -/
theorem writtenInputsHideFreeValues : Obligations.WrittenInputsHideFreeValues := fun i s d₁ d₂ d₃ d₄ d₅ h => by
  cases i with
  | scramble =>
    obtain ⟨hm, hk⟩ := h
    have hlen := hk.keyLen_ne_zero
    exact ⟨_, _, exec_scramble_ok hlen, exec_scramble_ok hlen,
      State.complete_redraw_of_eq (State.scrambleBody_redraw hm hk)⟩
  | unscramble =>
    obtain ⟨hm, hk⟩ := h
    have hlen := hk.keyLen_ne_zero
    exact ⟨_, _, exec_unscramble_ok hlen, exec_unscramble_ok hlen,
      State.complete_redraw_of_eq (State.scrambleBody_redraw hm hk)⟩
  | encode =>
    obtain ⟨hm, hk⟩ := h
    have hlen := hk.keyLen_ne_zero
    exact ⟨_, _, exec_encode_ok hlen, exec_encode_ok hlen,
      State.complete_redraw_of_eq (State.encodeBody_redraw hm hk)⟩
  | decode =>
    obtain ⟨hb, hk⟩ := h
    have hlen := hk.keyLen_ne_zero
    exact ⟨_, _, exec_decode_ok hlen, exec_decode_ok hlen,
      State.complete_redraw_of_eq (State.decodeBody_redraw hb hk)⟩
  | wrbit b =>
    obtain ⟨hx, hy, hp⟩ := h
    exact ⟨_, _, exec_wrbit_ok b ⟨hx, hy⟩, exec_wrbit_ok b ⟨hx, hy⟩,
      State.complete_redraw_of_eq (State.setPix_writePixelBit_redraw hp b)⟩
  | rdbit =>
    obtain ⟨hx, hy, hp⟩ := h
    exact ⟨_, _, exec_rdbit_ok ⟨hx, hy⟩, exec_rdbit_ok ⟨hx, hy⟩,
      State.complete_redraw_of_eq (State.setFlags_readPix_redraw hp)⟩
  | embed =>
    obtain ⟨hb, hp⟩ := h
    exact ⟨_, _, exec_embed _, exec_embed _, State.complete_redraw_of_eq (State.embedBody_redraw hb hp)⟩
  | extract =>
    exact ⟨_, _, exec_extract _, exec_extract _, State.complete_redraw_of_eq (State.extractBody_redraw h)⟩
  | capchk => exact ⟨_, _, exec_capchk _, exec_capchk _, rfl⟩
  | hide =>
    obtain ⟨hm, hk, hp⟩ := h
    have hlen := hk.keyLen_ne_zero
    by_cases hc : hasCapacity s.w s.msgLen
    · exact ⟨_, _, exec_hide_ok hlen hc, exec_hide_ok hlen hc,
        State.complete_redraw_of_eq (State.hideBody_redraw hm hk hp)⟩
    · exact ⟨_, _, exec_hide_capacity hlen hc, exec_hide_capacity hlen hc, rfl⟩
  | showCmd =>
    obtain ⟨hp, hk⟩ := h
    have hlen := hk.keyLen_ne_zero
    exact ⟨_, _, exec_showCmd_ok hlen, exec_showCmd_ok hlen,
      State.complete_redraw_of_eq (State.showBody_redraw hp hk)⟩

end Sys2Proof.Machine
end
